-- ==== Sys2Proof/Word.lean ====
section
/-! DEFINITION. The word types of the block: every port and field is an unsigned bit vector (spec rule R9). -/

namespace Sys2Proof

/-- A request or response word: `REQ_W` = `RSP_W` = 32 bits (R8, R46, R60). -/
abbrev Word := BitVec 32

/-- An octet: a byte of the input, a character code (`CHAR_W` = 8), a ROM entry (R8, R14). -/
abbrev Byte := BitVec 8

/-- A BUF byte address: `ADDR_W` = 16 bits (R8, R27). -/
abbrev Addr := BitVec 16

end Sys2Proof
end

