-- ==== Sys2Proof/Syntax.lean ====
section
/-! DEFINITION. The requests of the block: one constructor for each row of spec/opcode_table.json (R47). Operands have the
width of their field, so a term holds no operand that its encoding cannot hold (R48 to R53, R55). -/

namespace Sys2Proof

inductive Instr where
  /-- QUINT idx: quintet `idx` of the input (R73; format I, R48). -/
  | quint (idx : BitVec 16)
  /-- BITPOS idx: the bit-position descriptor of quintet `idx` (R70; format I, R48). -/
  | bitpos (idx : BitVec 16)
  /-- COMB lead, trail: two bytes as one 16-bit value (R71; format C, R49). -/
  | comb (lead trail : Byte)
  /-- EXTR cnt, ofs, src: `cnt` bits of `src` from bit `ofs` up (R72; format X, R50). -/
  | extr (cnt ofs : BitVec 5) (src : BitVec 16)
  /-- ALPHA v: the character of quintet value `v` (R80; format A, R51). -/
  | alpha (val : BitVec 5)
  /-- FMT idx, pad: output character `idx` of the encode (R81; format F, R52). PAD = 1 is `true` (R54). -/
  | fmt (idx : BitVec 16) (pad : Bool)
  /-- OLEN pad: the length of the encode (R82; format L, R53). -/
  | olen (pad : Bool)
  /-- Every word with OP 111 (R56, R93); `rest` is `REQ[28:0]`, which the block does not examine (log entry 11). -/
  | reservedOp111 (rest : BitVec 29)
deriving DecidableEq, Repr

end Sys2Proof
end

