-- ==== Sys2Proof/WellFormed.lean ====
section
/-! DEFINITION. Well-formedness. A request of the block is written as one assembly line (R63), whose operands are numbers
of any size; `AsmLine.wf` is the assembler's check that each operand fits its field. `Instr` needs no check of its own,
because its operands have their fields' widths: `Instr.wf` says that its line passes. -/

namespace Sys2Proof

/-- One line of the assembly syntax of R63, its numbers read (`Machine.readLine` reads the text). -/
inductive AsmLine where
  | quint (idx : Nat)
  | bitpos (idx : Nat)
  | comb (lead trail : Nat)
  | extr (cnt ofs src : Nat)
  | alpha (v : Nat)
  | fmt (idx pad : Nat)
  | olen (pad : Nat)
  /-- `.word n`: any raw word, the illegal and reserved encodings among them. -/
  | word (n : Nat)
deriving DecidableEq, Repr

/-- The operand ranges of R63's table: the assembler refuses an operand that does not fit its field. -/
def AsmLine.wf : AsmLine → Bool
  | .quint idx => decide (idx ≤ 65535)
  | .bitpos idx => decide (idx ≤ 65535)
  | .comb lead trail => decide (lead ≤ 255) && decide (trail ≤ 255)
  | .extr cnt ofs src => decide (cnt ≤ 31) && decide (ofs ≤ 31) && decide (src ≤ 65535)
  | .alpha v => decide (v ≤ 31)
  | .fmt idx pad => decide (idx ≤ 65535) && decide (pad ≤ 1)
  | .olen pad => decide (pad ≤ 1)
  | .word n => decide (n < 2 ^ 32)

/-- The assembly line that writes an instruction. A word with OP 111 has no mnemonic and is written with `.word` (R63). -/
def Instr.asm : Instr → AsmLine
  | .quint idx => .quint idx.toNat
  | .bitpos idx => .bitpos idx.toNat
  | .comb lead trail => .comb lead.toNat trail.toNat
  | .extr cnt ofs src => .extr cnt.toNat ofs.toNat src.toNat
  | .alpha val => .alpha val.toNat
  | .fmt idx pad => .fmt idx.toNat pad.toNat
  | .olen pad => .olen pad.toNat
  | .reservedOp111 rest => .word (7 * 2 ^ 29 + rest.toNat)

/-- An instruction is well formed when its assembly line is. -/
def Instr.wf (i : Instr) : Bool := i.asm.wf

end Sys2Proof
end

