-- ==== Sys2Proof/Decode.lean ====
section
/-! DEFINITION. The request encoding (spec/30_encoding.md): the decoder, total on every 32-bit word, the encoder, the
opcode table's rows, and the assembler of R63. -/

namespace Sys2Proof

/-- Why a word is no request of the block although its OP is legal. -/
inductive Reject where
  /-- RSVD_NONZERO: a reserved bit of the operation's format is not zero (R57, R94). The step answers it with Err(2). -/
  | rsvdNonzero
deriving DecidableEq, Repr

/-- `OP = REQ[31:29]` (R46). -/
def opField (w : Word) : BitVec 3 := w.extractLsb' 29 3

/-- `RSVD(OP)`, the reserved bits of each legal OP (R57). OP 111 has none: its other bits are not examined (R56). -/
def rsvdMask (op : BitVec 3) : Word :=
  match op.toNat with
  | 0 => 0x1FFF0000#32
  | 1 => 0x1FFF0000#32
  | 2 => 0x1FFF0000#32
  | 3 => 0x00E00000#32
  | 4 => 0x1FFFFFE0#32
  | 5 => 0x1FFE0000#32
  | 6 => 0x1FFEFFFF#32
  | _ => 0x00000000#32

/-- The operand fields of a word, by its OP (R48 to R53, R55). -/
def decodeFields (w : Word) : Instr :=
  match (opField w).toNat with
  | 0 => .quint (w.extractLsb' 0 16)
  | 1 => .bitpos (w.extractLsb' 0 16)
  | 2 => .comb (w.extractLsb' 8 8) (w.extractLsb' 0 8)
  | 3 => .extr (w.extractLsb' 24 5) (w.extractLsb' 16 5) (w.extractLsb' 0 16)
  | 4 => .alpha (w.extractLsb' 0 5)
  | 5 => .fmt (w.extractLsb' 0 16) (w.getLsbD 16)
  | 6 => .olen (w.getLsbD 16)
  | _ => .reservedOp111 (w.extractLsb' 0 29)

/-- The decoder: reserved bits refuse the word by name (R57); OP 111 is the table's reserved row (R56). Total (R58). -/
def decode (w : Word) : Except Reject Instr :=
  if w &&& rsvdMask (opField w) = 0 then .ok (decodeFields w) else .error .rsvdNonzero

/-- A field's value at its place: `zext(x) << lo`, in a word of `n` bits (R9). -/
def place (n : Nat) {k : Nat} (x : BitVec k) (lo : Nat) : BitVec n := x.setWidth n <<< lo

/-- The word of an instruction, field by field at the bits of the format tables R48 to R53; reserved bits are 0. -/
def encode : Instr → Word
  | .quint idx => place 32 0b000#3 29 ||| place 32 idx 0
  | .bitpos idx => place 32 0b001#3 29 ||| place 32 idx 0
  | .comb lead trail => place 32 0b010#3 29 ||| place 32 lead 8 ||| place 32 trail 0
  | .extr cnt ofs src => place 32 0b011#3 29 ||| place 32 cnt 24 ||| place 32 ofs 16 ||| place 32 src 0
  | .alpha val => place 32 0b100#3 29 ||| place 32 val 0
  | .fmt idx pad => place 32 0b101#3 29 ||| place 32 (BitVec.ofBool pad) 16 ||| place 32 idx 0
  | .olen pad => place 32 0b110#3 29 ||| place 32 (BitVec.ofBool pad) 16
  | .reservedOp111 rest => place 32 0b111#3 29 ||| place 32 rest 0

/-- A row of spec/opcode_table.json: a word is the row's when `word &&& mask = pattern` (R59). -/
structure OpcodeRow where
  mnemonic : String
  pattern  : Word
  mask     : Word
deriving DecidableEq, Repr

/-- The row an instruction belongs to, from spec/opcode_table.json. -/
def Instr.row : Instr → OpcodeRow
  | .quint _ => ⟨"QUINT", 0x00000000#32, 0xFFFF0000#32⟩
  | .bitpos _ => ⟨"BITPOS", 0x20000000#32, 0xFFFF0000#32⟩
  | .comb _ _ => ⟨"COMB", 0x40000000#32, 0xFFFF0000#32⟩
  | .extr _ _ _ => ⟨"EXTR", 0x60000000#32, 0xE0E00000#32⟩
  | .alpha _ => ⟨"ALPHA", 0x80000000#32, 0xFFFFFFE0#32⟩
  | .fmt _ _ => ⟨"FMT", 0xA0000000#32, 0xFFFE0000#32⟩
  | .olen _ => ⟨"OLEN", 0xC0000000#32, 0xFFFEFFFF#32⟩
  | .reservedOp111 _ => ⟨"reserved_OP_111", 0xE0000000#32, 0xE0000000#32⟩

/-- The table's eight rows, in its order. -/
def opcodeRows : List OpcodeRow :=
  [Instr.row (.quint 0), Instr.row (.bitpos 0), Instr.row (.comb 0 0), Instr.row (.extr 0 0 0)] ++
    [Instr.row (.alpha 0), Instr.row (.fmt 0 false), Instr.row (.olen false), Instr.row (.reservedOp111 0)]

/-- The "encoding" column of R63, in the spec's own arithmetic on naturals. -/
def AsmLine.number : AsmLine → Nat
  | .quint idx => (0 <<< 29) ||| idx
  | .bitpos idx => (1 <<< 29) ||| idx
  | .comb lead trail => (2 <<< 29) ||| (lead <<< 8) ||| trail
  | .extr cnt ofs src => (3 <<< 29) ||| (cnt <<< 24) ||| (ofs <<< 16) ||| src
  | .alpha v => (4 <<< 29) ||| v
  | .fmt idx pad => (5 <<< 29) ||| (pad <<< 16) ||| idx
  | .olen pad => (6 <<< 29) ||| (pad <<< 16)
  | .word n => n

/-- The assembler (R63): it refuses an operand that does not fit its field. -/
def assemble (l : AsmLine) : Option Word :=
  if l.wf then some (BitVec.ofNat 32 l.number) else none

/-- The instruction the decoder reads from a word of the opcode table (32 bits, bit 0 the least significant). -/
def decodeTableWord (nbits w : Nat) : Option Instr :=
  if w % 2 ^ nbits < 2 ^ 32 then
    match decode (BitVec.ofNat 32 (w % 2 ^ nbits)) with
    | .ok i => some i
    | .error _ => none
  else none

end Sys2Proof
end

