-- ==== Sys2Proof/Config.lean ====
section
/-! DEFINITION. What an implementation fixes (R8) and the values the spec leaves open. A free value is an `opaque`
constant without a body: no proof can learn what it is, so whatever is proved holds for every value of it. -/

namespace Sys2Proof.Config

/-- `N_MAX`, the capacity of BUF in bytes (R8, D3). Mark: DESIGN CHOICE to fix the parameter at the spec's value (log entry 14). -/
def nMax : Nat := 40960

/-- The byte BUF holds at an address the environment has not written: "unspecified (any value)" (R112, U5; log entry 2). -/
opaque powerUpByte : Nat → Byte

/-- Free 32-bit values: RSP while the inputs are not held stable (R115, U3; log entry 6). -/
opaque freeWord : Nat → Word

/-- Free addresses: RA0 and RA1 where no rule gives them (R19, U6; log entry 8). -/
opaque freeAddr : Nat → Addr

/-- Free bytes: RD0 and RD1 on a port that is not enabled (R19; log entry 9). -/
opaque freeByte : Nat → Byte

/-- Free bits: RE0 and RE1 while the inputs are not held stable (R112, U7; log entry 6). -/
opaque freeBit : Nat → Bool

/-- `T_SETTLE`, the combinational settle time, OPEN in the spec (R115, D20, U8). No rule depends on it (R118). -/
opaque tSettle : Nat

/-- `BUF_BASE`, where BUF sits in the platform's address map, OPEN in the spec (R36, D5, U10). Invisible at the block's ports. -/
opaque bufBase : Nat

end Sys2Proof.Config
end

