-- ==== Sys2Proof/Machine/State.lean ====
section
/-! DEFINITION. The state. The block itself keeps nothing between requests (R15); what the spec names is the environment's
BUF, LEN and REQ (R26) and the values on the block's ports (R18). -/

namespace Sys2Proof.Machine

/-- Why the model stops. Error responses are not among them: they are responses, and the block goes on (R90, R100). -/
inductive Fault where
  /-- An access to a BUF address that R28 calls unmapped (0xA000 and up). Raised by `memRead`, which no request brings
  there (R28), and by `State.writeBuf`, the environment's write. Safe: the location does not exist (log entry 13). -/
  | bufUnmapped (addr : Nat)
deriving DecidableEq, Repr

/-- Requests without a meaning. -/
inductive Refusal where
  /-- An opcode-table row that has no meaning yet; raised only by an arm of `exec`, and no arm of this model raises it. Safe. -/
  | notModelled (mnemonic : String)
deriving DecidableEq, Repr

/-- The error codes of R92. -/
inductive ErrCode where
  /-- ECODE 1, ILLEGAL_OP: `REQ[31:29] = 111` (R93). -/
  | illegalOp
  /-- ECODE 2, RSVD_NONZERO: a reserved bit is not zero (R94). -/
  | rsvdNonzero
  /-- ECODE 3, LEN_RANGE: `LEN > N_MAX` for QUINT, FMT and OLEN (R96). -/
  | lenRange
  /-- ECODE 4, EXTR_RANGE: `OFS + CNT > 16` (R97). -/
  | extrRange
deriving DecidableEq, Repr

/-- BUF as (address, byte) pairs, addresses rising: the bytes that differ from what an unwritten address holds. -/
abbrev Memory := List Host.Cell

/-- One of the two byte-wide read ports (R18): RE and RA driven by the block, RD driven by the environment. -/
structure ReadPort where
  re : Bool
  ra : Addr
  rd : Byte
deriving DecidableEq, Repr

structure State where
  /-- REQ, the request word the environment drives (R18, R46). -/
  req : Word
  /-- LEN, the number of valid input bytes the environment drives (R18, R27). -/
  len : BitVec 16
  /-- BUF, the environment's input buffer (R26, R27). -/
  buf : Memory
  /-- The environment holds REQ, LEN and every byte the request reads stable while it is evaluated (R115; log entry 6). -/
  inputsStable : Bool
  /-- RE0, RA0, RD0 as they stand after the last evaluation (R18, R19). -/
  port0 : ReadPort
  /-- RE1, RA1, RD1 as they stand after the last evaluation (R18, R19). -/
  port1 : ReadPort
  /-- RSP as it stands after the last evaluation (R18, R60). -/
  rsp : Word
  /-- The model's own counter, no state of the hardware: which free value comes next (log entry 7). -/
  freeCount : Nat
deriving DecidableEq, Repr

/-- The state after power-up (R112). The block has no reset (R111). REQ and LEN are 0 by choice (log entries 3 and 4); the
RSP, RE0 and RE1 are the function of those inputs that R16 makes them, the response to QUINT 0 with LEN 0, and RA and RD,
any value on a port that is not enabled, are 0 by choice (log entry 5). -/
def State.reset : State where
  req := 0x00000000#32
  len := 0#16
  buf := []
  inputsStable := true
  port0 := { re := false, ra := 0#16, rd := 0#8 }
  port1 := { re := false, ra := 0#16, rd := 0#8 }
  rsp := 0x00000000#32
  freeCount := 0

end Sys2Proof.Machine
end

