-- ==== Sys2Proof/Machine/Flags.lean ====
section
/-! DEFINITION. The response word and its status bits ERR, V, PADCH and ECODE (R60 to R62). They belong to one response and
nothing in the block reads them back (R22). -/

namespace Sys2Proof.Machine

/-- RSP from its fields, each at its bits; bit 28 is always 0 (R60). -/
def packRsp (err v padch : Bool) (ecode : BitVec 4) (data : BitVec 24) : Word :=
  place 32 (BitVec.ofBool err) 31 ||| place 32 (BitVec.ofBool v) 30 ||| place 32 (BitVec.ofBool padch) 29 |||
    place 32 ecode 24 ||| place 32 data 0

/-- `respond(V, PADCH, DATA)`: a response that is not an error (R61). -/
def resultRsp (v padch : Bool) (data : BitVec 24) : Word := packRsp false v padch 0#4 data

/-- The ECODE of an error (R92). -/
def ErrCode.ecode : ErrCode → BitVec 4
  | .illegalOp => 1#4
  | .rsvdNonzero => 2#4
  | .lenRange => 3#4
  | .extrRange => 4#4

/-- The error response: ERR = 1, V = 0, PADCH = 0, ECODE = code, DATA = 0 (R91). -/
def errRsp (c : ErrCode) : Word := packRsp true false false c.ecode 0#24

/-- ERR, `RSP[31]` (R60). -/
def rspErr (w : Word) : Bool := w.getLsbD 31

/-- V, `RSP[30]` (R60). -/
def rspV (w : Word) : Bool := w.getLsbD 30

/-- PADCH, `RSP[29]` (R60). -/
def rspPadch (w : Word) : Bool := w.getLsbD 29

/-- The zero bit, `RSP[28]` (R60). -/
def rspZero (w : Word) : Bool := w.getLsbD 28

/-- ECODE, `RSP[27:24]` (R60). -/
def rspEcode (w : Word) : BitVec 4 := w.extractLsb' 24 4

/-- DATA, `RSP[23:0]` (R60). -/
def rspData (w : Word) : BitVec 24 := w.extractLsb' 0 24

end Sys2Proof.Machine
end

