-- ==== Sys2Proof/Machine/Operands.lean ====
section
/-! DEFINITION. The index arithmetic (R65, R78) and the two datapath functions `combineBytes` and `extractBits` (R71, R72).
Index arithmetic is exact on naturals and nothing wraps (R11, R68). -/

namespace Sys2Proof.Machine

/-- `p(q)`, the primary byte index (R65). -/
def primaryIndex (q : Nat) : Nat := (5 * q) / 8

/-- `s(q)`, the window start inside the primary byte, counted from its most significant bit (R65). -/
def windowStart (q : Nat) : Nat := (5 * q) % 8

/-- `spans(q)`: the window reaches into the secondary byte (R65). -/
def spans (q : Nat) : Bool := decide (3 < windowStart q)

/-- `sec(q)`, the secondary byte index (R65). -/
def secondaryIndex (q : Nat) : Nat := primaryIndex q + 1

/-- `OFF16(q)`, the quintet's low bit in the 16-bit window (R65; 90_conflicts.md C1, C2). -/
def off16 (q : Nat) : Nat := 11 - windowStart q

/-- `OFF8(q)`, the quintet's low bit in the primary byte, meaningful when the window does not span (R65, C2). -/
def off8 (q : Nat) : Nat := 3 - windowStart q

/-- `ceil_div(a, b)` (R11). -/
def ceilDiv (a b : Nat) : Nat := (a + b - 1) / b

/-- `QCNT(n)`, the number of quintets of `n` bytes (R65, R78). -/
def qcnt (n : Nat) : Nat := ceilDiv (8 * n) 5

/-- `PLEN(n)`, the padded output length (R78). -/
def plen (n : Nat) : Nat := 8 * ceilDiv (qcnt n) 8

/-- `OLEN(n, pad)`, the output length (R78). -/
def outLen (n : Nat) (pad : Bool) : Nat := if pad then plen n else qcnt n

/-- `combineBytes`: the leading byte is the high byte (R33, R71). -/
def combineBytes (lead trail : Byte) : BitVec 16 := place 16 lead 8 ||| place 16 trail 0

/-- `mask(k) = 2^k - 1` (R11), in 16 bits. -/
def maskBits (k : Nat) : BitVec 16 := BitVec.ofNat 16 (2 ^ k - 1)

/-- `extractBits`: `cnt` bits of `src` from bit `ofs` up, right-aligned (R72). -/
def extractBits (cnt ofs : Nat) (src : BitVec 16) : BitVec 16 := (src >>> ofs) &&& maskBits cnt

/-- BITPOS's DATA: OFF16 `[23:20]`, S `[19:17]`, SPAN `[16]`, PRI `[15:0]` (R70). -/
def descriptor (q : Nat) : BitVec 24 :=
  place 24 (BitVec.ofNat 4 (off16 q)) 20 ||| place 24 (BitVec.ofNat 3 (windowStart q)) 17 |||
    place 24 (BitVec.ofBool (spans q)) 16 ||| place 24 (BitVec.ofNat 16 (primaryIndex q)) 0

end Sys2Proof.Machine
end

