-- ==== Sys2Proof/Machine/Ops.lean ====
section
/-! DEFINITION. The shared operations: BUF, the read ports, answering a request, and raising an error. -/

namespace Sys2Proof.Machine

/-- What a request does: a next state, or a stop. -/
abbrev Result := Host.Outcome State Fault Refusal

/-! ## BUF -/

/-- The listed byte of an address. -/
def Memory.lookup : Memory → Nat → Option Byte
  | [], _ => none
  | (k, b) :: m, a => if k = a then some b else Memory.lookup m a

/-- `BUF[a]` (R29). An address the environment has not written holds an unspecified byte (R112, U5; log entry 2). -/
def Memory.read (m : Memory) (a : Nat) : Byte := (m.lookup a).getD (Config.powerUpByte a)

/-- Take an address out of the list. -/
def Memory.erase : Memory → Nat → Memory
  | [], _ => []
  | (k, b) :: m, a => if k = a then Memory.erase m a else (k, b) :: Memory.erase m a

/-- Put a byte at its place in the rising list. -/
def Memory.insert : Memory → Nat → Byte → Memory
  | [], a, v => [(a, v)]
  | (k, b) :: m, a, v =>
    if a < k then (a, v) :: (k, b) :: m
    else if a = k then (a, v) :: m
    else (k, b) :: Memory.insert m a v

/-- The environment's write of one byte (R30, R41). A byte equal to what an unwritten address holds is not listed. -/
def Memory.write (m : Memory) (a : Nat) (v : Byte) : Memory :=
  if v = Config.powerUpByte a then m.erase a else m.insert a v

/-- Addresses rise strictly from `lo` on, all of them are mapped (R28), and no entry is what an unwritten address holds. -/
def Memory.wfFrom : Nat → Memory → Bool
  | _, [] => true
  | lo, (k, b) :: m =>
    decide (lo ≤ k) && decide (k < Config.nMax) && decide (b ≠ Config.powerUpByte k) && Memory.wfFrom (k + 1) m

/-- The canonical form of BUF: equal contents are equal lists. -/
def Memory.wf (m : Memory) : Bool := m.wfFrom 0

/-- `MemRead(a, 1)` (R29). An address from 0xA000 up is unmapped and does not exist (R28). -/
def memRead (s : State) (a : Nat) : Except Fault Byte :=
  if a < Config.nMax then .ok (s.buf.read a) else .error (.bufUnmapped a)

/-- `byte(i)`, the zero-filling read: BUF below LEN, and 0 past it, where no read is issued (R31). -/
def State.byteAt (s : State) (i : Nat) : Byte := if i < s.len.toNat then s.buf.read i else 0#8

/-! ## The read ports -/

/-- Port 0 where it is not enabled: RE0 = 0, RA0 and RD0 any value (R19, D25; log entries 8 and 9). -/
def State.idlePort0 (s : State) : ReadPort :=
  { re := false, ra := Config.freeAddr (2 * s.freeCount), rd := Config.freeByte (2 * s.freeCount) }

/-- Port 1 where it is not enabled (R19, D25; log entries 8 and 9). -/
def State.idlePort1 (s : State) : ReadPort :=
  { re := false, ra := Config.freeAddr (2 * s.freeCount + 1), rd := Config.freeByte (2 * s.freeCount + 1) }

/-- RE of a driven port: the block uses the byte and its address is below LEN (R19, R31). -/
def readEnable (s : State) (used : Bool) (a : Nat) : Bool := used && decide (a < s.len.toNat)

/-- Drive a port with an address. The environment returns BUF at that address (R29). A port that is not enabled stands as
`idle`: its RA and RD are any value (R19, D25, U6; log entries 8 and 9). -/
def drivePort (s : State) (used : Bool) (a : Nat) (idle : ReadPort) : Except Fault ReadPort :=
  if readEnable s used a then
    match memRead s a with
    | .ok b => .ok { re := true, ra := BitVec.ofNat 16 a, rd := b }
    | .error f => .error f
  else .ok idle

/-- The byte the block takes from a port: RD when enabled, else the zero fill (R31; RD is ignored when RE = 0, R19). -/
def ReadPort.byte (p : ReadPort) : Byte := if p.re then p.rd else 0#8

/-- Run a request that reads quintet `q`: RA0 = p(q), RA1 = p(q) + 1, port 1 used only when the window spans (R19). -/
def withQuintetPorts (s : State) (q : Nat) (k : ReadPort → ReadPort → Result) : Result :=
  match drivePort s true (primaryIndex q) s.idlePort0, drivePort s (spans q) (secondaryIndex q) s.idlePort1 with
  | .ok p0, .ok p1 => k p0 p1
  | .error f, _ => .fault f
  | .ok _, .error f => .fault f

/-- The quintet in the window `{port 0, port 1}`: `extractBits(5, combineBytes(hi, lo), 11 - s)` (R73). -/
def quintetValue (q : Nat) (p0 p1 : ReadPort) : BitVec 5 :=
  (extractBits 5 (off16 q) (combineBytes p0.byte p1.byte)).setWidth 5

/-! ## Answering -/

/-- The end of every evaluation: the ports and RSP take their values. REQ, LEN and BUF are the environment's (R26, R30). -/
def State.settle (s : State) (p0 p1 : ReadPort) (rsp : Word) : State :=
  { s with port0 := p0, port1 := p1, rsp := rsp, freeCount := s.freeCount + 1 }

/-- `respond(V, PADCH, DATA)` by a request that drives the read ports (R61, R19). -/
def respondReading (s : State) (p0 p1 : ReadPort) (v padch : Bool) (data : BitVec 24) : Result :=
  .next (s.settle p0 p1 (resultRsp v padch data))

/-- `respond(V, PADCH, DATA)` by a request that does not read BUF (R61, R19). -/
def respond (s : State) (v padch : Bool) (data : BitVec 24) : Result :=
  respondReading s s.idlePort0 s.idlePort1 v padch data

/-- `raise Err(code)`: RE0 and RE1 become 0 and RSP the error response; nothing else changes (R90, R91). It is a next
state: the block goes on, and the fault is the issuer's (R91, R100; `State.issuerFault`, log entry 1). -/
def raiseErr (s : State) (c : ErrCode) : Result :=
  .next (s.settle s.idlePort0 s.idlePort1 (errRsp c))

/-- `if LEN > N_MAX then raise Err(3)`, before any read or length computation (R95). -/
def checkLen (s : State) (k : Result) : Result :=
  if Config.nMax < s.len.toNat then raiseErr s .lenRange else k

/-- The answer to a word the decoder refuses (R57, R94). -/
def answerReject (s : State) : Reject → Result
  | .rsvdNonzero => raiseErr s .rsvdNonzero

/-- An evaluation during which an input changes: every output is any value (R115, R112, U3, U7; log entry 6). -/
def unsettled (s : State) : Result :=
  .next (s.settle
    { re := Config.freeBit (2 * s.freeCount), ra := s.idlePort0.ra, rd := s.idlePort0.rd }
    { re := Config.freeBit (2 * s.freeCount + 1), ra := s.idlePort1.ra, rd := s.idlePort1.rd }
    (Config.freeWord s.freeCount))

/-- The request word the block evaluates: the one on REQ (R21, R46). -/
def State.request (s : State) : Word := s.req

end Sys2Proof.Machine
end

