-- ==== Sys2Proof/Machine/Rom.lean ====
section
/-! DEFINITION. The alphabet ROM (R38 to R40) and the pad character (R77). The character identities are the source's; their
8-bit codes are the spec's decision D15 (log entry 12). -/

namespace Sys2Proof.Machine

/-- R39's table: entry `v` is the code of alphabet character `v`. Constant from power-up; no request writes it (R24, R40). -/
def alphabetRom : List Byte :=
  [0x41#8, 0x42#8, 0x43#8, 0x44#8, 0x45#8, 0x46#8, 0x47#8, 0x48#8] ++
  [0x49#8, 0x4A#8, 0x4B#8, 0x4C#8, 0x4D#8, 0x4E#8, 0x4F#8, 0x50#8] ++
  [0x51#8, 0x52#8, 0x53#8, 0x54#8, 0x55#8, 0x56#8, 0x57#8, 0x58#8] ++
  [0x59#8, 0x5A#8, 0x32#8, 0x33#8, 0x34#8, 0x35#8, 0x36#8, 0x37#8]

/-- `RomRead(v)` (R39). The 5-bit address covers exactly the 32 entries, so the default is never used (R38). -/
def romRead (v : BitVec 5) : Byte := alphabetRom.getD v.toNat 0#8

/-- The code of the pad character `=`; no entry of the ROM (R77). -/
def padCode : Byte := 0x3D#8

end Sys2Proof.Machine
end

