-- ==== Sys2Proof/Machine/Format.lean ====
section
/-! DEFINITION. The alphabet mapper and the output formatter (spec/41_alphabet_format.md): ALPHA, FMT, OLEN. -/

namespace Sys2Proof.Machine

/-- ALPHA (R80): it cannot fail and reads neither BUF nor LEN. -/
def execAlpha (val : BitVec 5) (s : State) : Result :=
  respond s true false ((romRead val).setWidth 24)

/-- FMT (R81): an alphabet character, the pad character, or no character. -/
def execFmt (idx : BitVec 16) (pad : Bool) (s : State) : Result :=
  checkLen s <|
    if idx.toNat < qcnt s.len.toNat then
      withQuintetPorts s idx.toNat fun p0 p1 =>
        respondReading s p0 p1 true false ((romRead (quintetValue idx.toNat p0 p1)).setWidth 24)
    else if pad && decide (idx.toNat < plen s.len.toNat) then respond s true true (padCode.setWidth 24)
    else respond s false false 0#24

/-- OLEN (R82): it reads LEN but not BUF. -/
def execOlen (pad : Bool) (s : State) : Result :=
  checkLen s <| respond s true false (BitVec.ofNat 24 (outLen s.len.toNat pad))

end Sys2Proof.Machine
end

