-- ==== Sys2Proof/Machine/Illegal.lean ====
section
/-! DEFINITION. The opcode table's reserved row: OP 111 (spec/60_exceptions.md). -/

namespace Sys2Proof.Machine

/-- Every word with OP 111 answers Err(1), whatever its other bits (R56, R93). -/
def execReservedOp111 (_rest : BitVec 29) (s : State) : Result :=
  raiseErr s .illegalOp

end Sys2Proof.Machine
end

