-- ==== Sys2Proof/Machine/Quintet.lean ====
section
/-! DEFINITION. The quintet extractor's operations (spec/40_quintet.md): BITPOS, COMB, EXTR, QUINT. -/

namespace Sys2Proof.Machine

/-- BITPOS (R70): a function of the index alone; it reads neither BUF nor LEN. -/
def execBitpos (idx : BitVec 16) (s : State) : Result :=
  respond s true false (descriptor idx.toNat)

/-- COMB (R71). -/
def execComb (lead trail : Byte) (s : State) : Result :=
  respond s true false ((combineBytes lead trail).setWidth 24)

/-- EXTR (R72); the range check is on the exact sum (R97). -/
def execExtr (cnt ofs : BitVec 5) (src : BitVec 16) (s : State) : Result :=
  if 16 < ofs.toNat + cnt.toNat then raiseErr s .extrRange
  else respond s true false ((extractBits cnt.toNat ofs.toNat src).setWidth 24)

/-- QUINT (R73): past the last quintet it answers V = 0, which is not an error. -/
def execQuint (idx : BitVec 16) (s : State) : Result :=
  checkLen s <| withQuintetPorts s idx.toNat fun p0 p1 =>
    if idx.toNat < qcnt s.len.toNat then
      respondReading s p0 p1 true false ((quintetValue idx.toNat p0 p1).setWidth 24)
    else respondReading s p0 p1 false false 0#24

end Sys2Proof.Machine
end

