-- ==== Sys2Proof/Machine/Dispatch.lean ====
section
/-! DEFINITION. The dispatch: one arm for each constructor of `Instr`. -/

namespace Sys2Proof.Machine
open Sys2Proof

def exec (i : Instr) (s : State) : Host.Outcome State Fault Refusal :=
  match i with
  | .quint idx => Sys2Proof.Machine.execQuint idx s
  | .bitpos idx => Sys2Proof.Machine.execBitpos idx s
  | .comb lead trail => Sys2Proof.Machine.execComb lead trail s
  | .extr cnt ofs src => Sys2Proof.Machine.execExtr cnt ofs src s
  | .alpha val => Sys2Proof.Machine.execAlpha val s
  | .fmt idx pad => Sys2Proof.Machine.execFmt idx pad s
  | .olen pad => Sys2Proof.Machine.execOlen pad s
  | .reservedOp111 rest => Sys2Proof.Machine.execReservedOp111 rest s

end Sys2Proof.Machine
end

