-- ==== Sys2Proof/Machine/Step.lean ====
section
/-! DEFINITION. One step: one application of `Eval` to the request on REQ (R16, R118). -/

namespace Sys2Proof.Machine

/-- One evaluation. A request with a refused encoding is answered with its error (R57); with inputs that are not held
stable the outputs are any value (R115). -/
def step (s : State) : Host.Outcome State Fault Refusal :=
  if s.inputsStable then
    match decode s.request with
    | .ok i => exec i s
    | .error r => answerReject s r
  else unsettled s

/-- The environment presents a word of the opcode table on REQ (R21; log entry 10). -/
def State.withFetchWord (s : State) (nbits w : Nat) : State :=
  { s with req := BitVec.ofNat 32 (w % 2 ^ nbits), inputsStable := true }

end Sys2Proof.Machine
end

