-- ==== Sys2Proof/Machine/Assembler.lean ====
section
/-! DEFINITION. The text of one assembly line (R63): a mnemonic, then comma-separated numbers. Spaces and tabs around a
mnemonic or a number are ignored, mnemonics are written as R47 and R63 write them, and hexadecimal digits may be in either
case: R63 leaves these open (log entry 17). -/

namespace Sys2Proof.Machine

/-- The value of a digit in a base: `0` to `9`, then `A` to `F` or `a` to `f`. -/
def digitValue (base : Nat) (c : Char) : Option Nat :=
  let n := c.toNat
  let v :=
    if 48 ≤ n ∧ n ≤ 57 then n - 48
    else if 65 ≤ n ∧ n ≤ 70 then n - 55
    else if 97 ≤ n ∧ n ≤ 102 then n - 87
    else base
  if v < base then some v else none

/-- Digits in a base, the first the most significant, after digits worth `acc`. -/
def readDigits (base : Nat) : Nat → List Char → Option Nat
  | acc, [] => some acc
  | acc, c :: cs =>
    match digitValue base c with
    | some d => readDigits base (acc * base + d) cs
    | none => none

/-- "Numbers are decimal, `0x` hexadecimal or `0b` binary" (R63). -/
def readNumber : List Char → Option Nat
  | [] => none
  | '0' :: 'x' :: c :: cs => readDigits 16 0 (c :: cs)
  | '0' :: 'b' :: c :: cs => readDigits 2 0 (c :: cs)
  | c :: cs => readDigits 10 0 (c :: cs)

/-- A space or a tab. -/
def isBlank (c : Char) : Bool := c == ' ' || c == '\t'

/-- A piece of the line without the blanks around it. -/
def trimBlanks (cs : List Char) : List Char := ((cs.dropWhile isBlank).reverse.dropWhile isBlank).reverse

/-- The pieces between commas. -/
def splitCommas : List Char → List (List Char)
  | [] => [[]]
  | c :: cs =>
    if c = ',' then [] :: splitCommas cs
    else
      match splitCommas cs with
      | [] => [[c]]
      | p :: ps => (c :: p) :: ps

/-- All the numbers of a list of pieces, or none if one of them is no number. -/
def readNumbers : List (List Char) → Option (List Nat)
  | [] => some []
  | p :: ps =>
    match readNumber (trimBlanks p), readNumbers ps with
    | some n, some ns => some (n :: ns)
    | _, _ => none

/-- The line with a mnemonic and the number of operands that R63's table gives it. -/
def lineOf (name : List Char) (operands : List Nat) : Option AsmLine :=
  if name = ['Q', 'U', 'I', 'N', 'T'] then
    match operands with
    | [idx] => some (.quint idx)
    | _ => none
  else if name = ['B', 'I', 'T', 'P', 'O', 'S'] then
    match operands with
    | [idx] => some (.bitpos idx)
    | _ => none
  else if name = ['C', 'O', 'M', 'B'] then
    match operands with
    | [lead, trail] => some (.comb lead trail)
    | _ => none
  else if name = ['E', 'X', 'T', 'R'] then
    match operands with
    | [cnt, ofs, src] => some (.extr cnt ofs src)
    | _ => none
  else if name = ['A', 'L', 'P', 'H', 'A'] then
    match operands with
    | [v] => some (.alpha v)
    | _ => none
  else if name = ['F', 'M', 'T'] then
    match operands with
    | [idx, pad] => some (.fmt idx pad)
    | _ => none
  else if name = ['O', 'L', 'E', 'N'] then
    match operands with
    | [pad] => some (.olen pad)
    | _ => none
  else if name = ['.', 'w', 'o', 'r', 'd'] then
    match operands with
    | [n] => some (.word n)
    | _ => none
  else none

/-- The mnemonic of a text and the rest after it. -/
def splitName (text : List Char) : List Char × List Char :=
  ((text.dropWhile isBlank).takeWhile (fun c => !isBlank c), (text.dropWhile isBlank).dropWhile (fun c => !isBlank c))

/-- One assembly line from its text (R63). -/
def readLine (text : List Char) : Option AsmLine :=
  match readNumbers (splitCommas (splitName text).2) with
  | some operands => lineOf (splitName text).1 operands
  | none => none

/-- The assembler on text: none for a text that is no line of R63, or with an operand that does not fit its field. -/
def assembleText (text : List Char) : Option Word :=
  match readLine text with
  | some l => assemble l
  | none => none

end Sys2Proof.Machine
end

