-- ==== Sys2Proof/Machine/Env.lean ====
section
/-! DEFINITION. The environment: what the outside does to the block's inputs between two requests (R21, R26, R113). -/

namespace Sys2Proof.Machine

/-- Present a request word on REQ (R21). -/
def State.present (s : State) (w : Word) : State := { s with req := w }

/-- Drive LEN (R23, R113 step 2). -/
def State.driveLen (s : State) (n : BitVec 16) : State := { s with len := n }

/-- Say whether the inputs are held stable while the next requests are evaluated (R115; log entry 6). -/
def State.holdInputs (s : State) (held : Bool) : State := { s with inputsStable := held }

/-- Write one byte of BUF (R30, R41). An unmapped address does not exist (R28; log entry 13). -/
def State.writeBuf (s : State) (a : Nat) (v : Byte) : Result :=
  if a < Config.nMax then .next { s with buf := s.buf.write a v } else .fault (.bufUnmapped a)

/-- Write bytes to BUF from address `a` up, in order (R27, R113 step 1). -/
def writeBytes : List Byte → Nat → State → Result
  | [], _, s => .next s
  | b :: bs, a, s =>
    match s.writeBuf a b with
    | .next t => writeBytes bs (a + 1) t
    | .fault f => .fault f
    | .refused r => .refused r

/-- The set-up of R113: the input bytes to BUF[0..n), then LEN = n, held stable (R114; log entry 19). -/
def State.setUp (s : State) (bytes : List Byte) : Result :=
  match writeBytes bytes 0 s with
  | .next t => .next ((t.driveLen (BitVec.ofNat 16 bytes.length)).holdInputs true)
  | .fault f => .fault f
  | .refused r => .refused r

end Sys2Proof.Machine
end

