-- ==== Sys2Proof/Machine/Encode.lean ====
section
/-! DEFINITION. The encode observation (R83): the environment's program, one OLEN and then one FMT for each position. It
collects characters only while its premises hold: inputs held stable (R114, U4), no error response (R91). -/

namespace Sys2Proof.Machine

/-- Why an encode gives no string. -/
inductive EncodeStop where
  /-- The environment does not hold the inputs stable: what it collects is no encode (R114, U4). Safe (log entry 15). -/
  | inputsNotStable
  /-- A response had ERR = 1, the fault of the request's issuer (R91). Safe (log entry 1). -/
  | errResponse (ecode : BitVec 4)
  /-- The model stopped. No request does (R119). Safe. -/
  | machineStopped
deriving DecidableEq, Repr

/-- Present one request and take its response. -/
def ask (s : State) (i : Instr) : Except EncodeStop State :=
  if s.inputsStable then
    match step (s.present (encode i)) with
    | .next t => if rspErr t.rsp then .error (.errResponse (rspEcode t.rsp)) else .ok t
    | .fault _ => .error .machineStopped
    | .refused _ => .error .machineStopped
  else .error .inputsNotStable

/-- One request the environment presented, and the response it sampled. -/
structure Exchange where
  request  : Instr
  response : Word
deriving DecidableEq, Repr

/-- `DATA(FMT k, pad)[7:0]` (R83). -/
def Exchange.character (x : Exchange) : Byte := (rspData x.response).setWidth 8

/-- Present `FMT k, pad` for `count` positions from `k` up (R83): what was presented and answered, and the state after it. -/
def collect (pad : Bool) : Nat → Nat → State → Except EncodeStop (List Exchange × State)
  | 0, _, s => .ok ([], s)
  | count + 1, k, s =>
    match ask s (.fmt (BitVec.ofNat 16 k) pad) with
    | .error e => .error e
    | .ok t =>
      match collect pad count (k + 1) t with
      | .error e => .error e
      | .ok (xs, u) => .ok (⟨.fmt (BitVec.ofNat 16 k) pad, t.rsp⟩ :: xs, u)

/-- The encode program of R83 as it runs: `L <- DATA(OLEN pad)`, then FMT for positions 0 to L - 1. -/
def encodeRun (pad : Bool) (s : State) : Except EncodeStop (List Exchange × State) :=
  match ask s (.olen pad) with
  | .error e => .error e
  | .ok t =>
    match collect pad (rspData t.rsp).toNat 0 t with
    | .error e => .error e
    | .ok (xs, u) => .ok (⟨.olen pad, t.rsp⟩ :: xs, u)

/-- The observation of R83: the characters of the FMT responses, in order. The first exchange is OLEN's. -/
def encodeObs (pad : Bool) (s : State) : Except EncodeStop (List Byte) :=
  match encodeRun pad s with
  | .error e => .error e
  | .ok (xs, _) => .ok (xs.tail.map Exchange.character)

end Sys2Proof.Machine
end

