-- ==== Sys2Proof/Machine/Stream.lean ====
section
/-! DEFINITION. The source-level meaning the block must reproduce, over a byte sequence alone: the bit stream and its
quintets (R10, R67), and the Base32 encode of R83. Nothing here is a request, a port or a step. -/

namespace Sys2Proof.Machine

/-- Stream bit `j`: bit `7 - (j mod 8)` of byte `j div 8`, and 0 past the last byte (R10, R67). -/
def streamBit (input : List Byte) (j : Nat) : Nat :=
  if j < 8 * input.length then ((input.getD (j / 8) 0#8).toNat >>> (7 - j % 8)) &&& 1 else 0

/-- `Q(q)`: the stream bits `[5q, 5q+5)`, the first the most significant (R67). -/
def streamQuintet (input : List Byte) (q : Nat) : Nat :=
  (streamBit input (5 * q) <<< 4) + (streamBit input (5 * q + 1) <<< 3) + (streamBit input (5 * q + 2) <<< 2) +
    (streamBit input (5 * q + 3) <<< 1) + (streamBit input (5 * q + 4) <<< 0)

/-- The source's `encode(bytes, padding)` (R3, R83): the quintets' characters, then the pads. -/
def base32 (input : List Byte) (pad : Bool) : List Byte :=
  (List.range (qcnt input.length)).map (fun q => romRead (BitVec.ofNat 5 (streamQuintet input q))) ++
    List.replicate (outLen input.length pad - qcnt input.length) padCode

/-- The byte sequence the environment presents: BUF[0], ..., BUF[LEN - 1] (R27). -/
def State.input (s : State) : List Byte := (List.range s.len.toNat).map s.buf.read

end Sys2Proof.Machine
end

