-- ==== Sys2Proof/Safety.lean ====
section
/-! DEFINITION. What counts as a safe run, and the terms the claims use. -/

namespace Sys2Proof.Machine

/-- The fault of the request's issuer that an ERR = 1 response reports (R91, R92; log entry 1). -/
def State.issuerFault (s : State) : Option ErrCode :=
  if rspErr s.rsp then
    match (rspEcode s.rsp).toNat with
    | 1 => some .illegalOp
    | 2 => some .rsvdNonzero
    | 3 => some .lenRange
    | 4 => some .extrRange
    | _ => none
  else none

/-- A safe evaluation: it answers, and the response is no error (R91: the premise of a claim about `encode`). -/
def SafeStep (s : State) : Prop := ∃ t, step s = .next t ∧ t.issuerFault = none

/-- What every request leaves alone: the environment's REQ, LEN and BUF, byte by byte (R26, R30), and its duty bit. -/
def EnvKept (s t : State) : Prop :=
  t.req = s.req ∧ t.len = s.len ∧ t.inputsStable = s.inputsStable ∧ t.buf = s.buf ∧
    ∀ a, t.buf.read a = s.buf.read a

/-- Neither read port is enabled (R19, R91). -/
def NoRead (t : State) : Prop := t.port0.re = false ∧ t.port1.re = false

/-- The instruction completes with response word `w` and leaves the environment's state alone. -/
def Answers (i : Instr) (s : State) (w : Word) : Prop :=
  ∃ t, exec i s = .next t ∧ t.rsp = w ∧ EnvKept s t

/-- As `Answers`, and the request reads no byte of BUF. -/
def AnswersUnread (i : Instr) (s : State) (w : Word) : Prop :=
  ∃ t, exec i s = .next t ∧ t.rsp = w ∧ NoRead t ∧ EnvKept s t

/-- Two evaluations look alike at the block's outputs: same RSP, same enables, and the same address and data on every
enabled port. What stands on a port that is not enabled is any value, and a claim does not read it (R19, U6). -/
def SameOutputs (a b : State) : Prop :=
  a.rsp = b.rsp ∧ a.port0.re = b.port0.re ∧ a.port1.re = b.port1.re ∧
    (a.port0.re = true → a.port0.ra = b.port0.ra ∧ a.port0.rd = b.port0.rd) ∧
    (a.port1.re = true → a.port1.ra = b.port1.ra ∧ a.port1.rd = b.port1.rd)

/-- The conditions every response satisfies (R62), but for the sentence about FMT. -/
def RspShape (w : Word) : Prop :=
  (rspErr w = true → rspV w = false ∧ rspPadch w = false ∧ rspData w = 0 ∧ rspEcode w ∈ [1#4, 2#4, 3#4, 4#4]) ∧
    (rspErr w = false → rspEcode w = 0) ∧ rspZero w = false ∧ (rspPadch w = true → rspV w = true) ∧
    (rspV w = false → rspErr w = false → rspData w = 0)

/-- An enabled port addresses a byte of the input, in the mapped part of BUF, and carries that byte (R19, R28, R29). -/
def PortOk (s : State) (p : ReadPort) : Prop :=
  p.re = true → p.ra.toNat < s.len.toNat ∧ p.ra.toNat ≤ 0x9FFF ∧ p.rd = s.buf.read p.ra.toNat

/-- The invariant of every evaluation: BUF is in canonical form, and while the inputs are held stable the response has a
shape of R62 and each enabled port reads the input. -/
def Inv (s : State) : Prop :=
  s.buf.wf = true ∧ (s.inputsStable = true → RspShape s.rsp ∧ PortOk s s.port0 ∧ PortOk s s.port1)

end Sys2Proof.Machine
end

