-- ==== Sys2Proof/Certificates/Slice0/Obligations.lean ====
section
/-! DEFINITION. The statements for the provers. Each docstring names the rule of the spec it formalises. Numbers in a
statement are the spec's own arithmetic on naturals (R11), so that a statement does not repeat the model's definitions. -/

open Sys2Proof Sys2Proof.Machine

/-! ## A step and the encoding -/

/-- A step with stable inputs runs the request the decoder reads from REQ (R16, R21, R46). -/
def Obligations.StepRunsDecodedRequest : Prop :=
  ∀ (s : State) (i : Instr), s.inputsStable = true → decode s.req = .ok i → step s = exec i s

/-- Words written out from the format tables decode to their instructions (R48 to R53, R56, R57). -/
def Obligations.SampleWordsDecode : Prop :=
  decode 0x00000003#32 = .ok (.quint 3) ∧ decode 0x20000004#32 = .ok (.bitpos 4) ∧
  decode 0x400074F7#32 = .ok (.comb 0x74 0xF7) ∧ decode 0x650B74F7#32 = .ok (.extr 5 11 0x74F7) ∧
  decode 0x8000001B#32 = .ok (.alpha 27) ∧ decode 0xA0010002#32 = .ok (.fmt 2 true) ∧
  decode 0xC0010000#32 = .ok (.olen true) ∧ decode 0xFFFFFFFF#32 = .ok (.reservedOp111 0x1FFFFFFF) ∧
  decode 0x00010003#32 = .error .rsvdNonzero

/-- Decoding an encoded instruction gives it back, with every operand at every value, and every word that decodes is the
encoding of what it decodes to. -/
def Obligations.DecodeEncodeAgree : Prop :=
  (∀ i : Instr, i.wf = true → decode (encode i) = .ok i) ∧
  (∀ (w : Word) (i : Instr), decode w = .ok i → i.wf = true ∧ encode i = w)

/-- The spec's own derivation (R59, marked [derived] there):
the masks decide the row, at most one row matches a word, and a word of no legal row is OP 111 or refused. -/
def Obligations.OpcodeRowsDecideDecoding : Prop :=
  (∀ (w : Word) (r : OpcodeRow), r ∈ opcodeRows →
    ((∃ i, decode w = .ok i ∧ i.row = r) ↔ w &&& r.mask = r.pattern)) ∧
  (∀ (w : Word) (r r' : OpcodeRow), r ∈ opcodeRows → r' ∈ opcodeRows →
    w &&& r.mask = r.pattern → w &&& r'.mask = r'.pattern → r = r') ∧
  (∀ (s : State), s.inputsStable = true →
    (∀ r ∈ opcodeRows, r.mnemonic ≠ "reserved_OP_111" → s.req &&& r.mask ≠ r.pattern) →
    ∃ t, step s = .next t ∧ t.rsp = if s.req.toNat / 2 ^ 29 = 7 then 0x81000000#32 else 0x82000000#32)

/-- The reserved-bit masks of R57, written out by OP number. -/
def reservedBits (op : Nat) : Word :=
  if op ≤ 2 then 0x1FFF0000#32 else if op = 3 then 0x00E00000#32 else if op = 4 then 0x1FFFFFE0#32
  else if op = 5 then 0x1FFE0000#32 else 0x1FFEFFFF#32

/-- The spec's own derivation (R58, marked [derived] there):
every word is exactly one of: a legal request of the operation its OP names (OP ≠ 111, reserved bits zero), illegal by OP
(OP = 111), reserved by field (OP ≠ 111, a reserved bit not zero); and the decoder answers each of them as such. -/
def Obligations.EveryWordIsOneOfThree : Prop :=
  ∀ w : Word,
    let op := w.toNat / 2 ^ 29
    let legal := ∃ i, decode w = .ok i ∧ i.row.mnemonic ≠ "reserved_OP_111" ∧ opcodeRows[op]? = some i.row
    let illegal := ∃ rest, decode w = .ok (.reservedOp111 rest)
    let refused := decode w = .error .rsvdNonzero
    (legal ↔ op ≠ 7 ∧ w &&& reservedBits op = 0) ∧ (illegal ↔ op = 7) ∧
      (refused ↔ op ≠ 7 ∧ w &&& reservedBits op ≠ 0) ∧
      ((legal ∧ ¬illegal ∧ ¬refused) ∨ (¬legal ∧ illegal ∧ ¬refused) ∨ (¬legal ∧ ¬illegal ∧ refused))

/-- Every operand is the unsigned number its request bits hold (R55), under the OP that selects it (R46). The last clause, the
29 bits that the row of OP 111 keeps, is the model's choice (log entry 11): R55 names no such operand. -/
def Obligations.OperandsAreRequestFields : Prop :=
  ∀ (w : Word) (i : Instr), decode w = .ok i →
    match i with
    | .quint idx => w.toNat / 2 ^ 29 = 0 ∧ idx.toNat = w.toNat % 2 ^ 16
    | .bitpos idx => w.toNat / 2 ^ 29 = 1 ∧ idx.toNat = w.toNat % 2 ^ 16
    | .comb lead trail => w.toNat / 2 ^ 29 = 2 ∧ lead.toNat = w.toNat / 2 ^ 8 % 2 ^ 8 ∧ trail.toNat = w.toNat % 2 ^ 8
    | .extr cnt ofs src => w.toNat / 2 ^ 29 = 3 ∧ cnt.toNat = w.toNat / 2 ^ 24 % 2 ^ 5 ∧
        ofs.toNat = w.toNat / 2 ^ 16 % 2 ^ 5 ∧ src.toNat = w.toNat % 2 ^ 16
    | .alpha val => w.toNat / 2 ^ 29 = 4 ∧ val.toNat = w.toNat % 2 ^ 5
    | .fmt idx pad => w.toNat / 2 ^ 29 = 5 ∧ idx.toNat = w.toNat % 2 ^ 16 ∧ pad.toNat = w.toNat / 2 ^ 16 % 2
    | .olen pad => w.toNat / 2 ^ 29 = 6 ∧ pad.toNat = w.toNat / 2 ^ 16 % 2
    | .reservedOp111 rest => w.toNat / 2 ^ 29 = 7 ∧ rest.toNat = w.toNat % 2 ^ 29

/-- Over numbers: the assembler refuses operands that do not fit; from a mnemonic it makes only the legal request the line
names; `.word` writes any raw word. Over text: decimal, `0x` and `0b` numbers have their value, and a mnemonic, a space and
comma-separated numbers are read as the line of R63's table. Two points are the model's choice and not R63's (log entry 17):
a `.word` number of 2^32 or more is refused, and a hexadecimal digit may be in either case (R63 writes upper case). -/
def Obligations.AssemblerMakesLegalRequests : Prop :=
  (∀ l : AsmLine, l.wf = false → assemble l = none) ∧
  (∀ l : AsmLine, l.wf = true → (∀ n, l ≠ .word n) →
    ∃ i w, i.asm = l ∧ assemble l = some w ∧ w.toNat = l.number ∧ w = encode i ∧ decode w = .ok i ∧
      i.row.mnemonic ≠ "reserved_OP_111") ∧
  (∀ w : Word, assemble (.word w.toNat) = some w) ∧
  (∀ ds : List Nat, ds ≠ [] →
    ((∀ d ∈ ds, d < 10) → readNumber (ds.map Nat.digitChar) = some (ds.foldl (fun v d => 10 * v + d) 0)) ∧
    ((∀ d ∈ ds, d < 16) → ∀ written : List Char,
      List.Forall₂ (fun c d => c = Nat.digitChar d ∨ c = (Nat.digitChar d).toUpper) written ds →
      readNumber ('0' :: 'x' :: written) = some (ds.foldl (fun v d => 16 * v + d) 0)) ∧
    ((∀ d ∈ ds, d < 2) →
      readNumber ('0' :: 'b' :: ds.map Nat.digitChar) = some (ds.foldl (fun v d => 2 * v + d) 0))) ∧
  (∀ (name : List Char) (written : List (List Char)) (operands : List Nat),
    name ≠ [] → (∀ c ∈ name, isBlank c = false) → written ≠ [] →
    List.Forall₂ (fun text n => readNumber text = some n) written operands →
    assembleText (name ++ ' ' :: List.intercalate [',', ' '] written) = (lineOf name operands).bind assemble) ∧
  (∀ a b c : Nat, lineOf "QUINT".toList [a] = some (.quint a) ∧ lineOf "BITPOS".toList [a] = some (.bitpos a) ∧
    lineOf "COMB".toList [a, b] = some (.comb a b) ∧ lineOf "EXTR".toList [a, b, c] = some (.extr a b c) ∧
    lineOf "ALPHA".toList [a] = some (.alpha a) ∧ lineOf "FMT".toList [a, b] = some (.fmt a b) ∧
    lineOf "OLEN".toList [a] = some (.olen a) ∧ lineOf ".word".toList [a] = some (.word a))

/-- The assembly lines and words that the spec's rules give as examples, and lines the assembler refuses (R63, R70 to R73,
R80 to R82). -/
def Obligations.ExampleLinesAssemble : Prop :=
  assembleText "QUINT 3".toList = some 0x00000003#32 ∧ assembleText "BITPOS 4".toList = some 0x20000004#32 ∧
  assembleText "COMB 0x74, 0xF7".toList = some 0x400074F7#32 ∧
  assembleText "EXTR 5, 11, 0x74F7".toList = some 0x650B74F7#32 ∧
  assembleText "ALPHA 27".toList = some 0x8000001B#32 ∧ assembleText "FMT 2, 1".toList = some 0xA0010002#32 ∧
  assembleText "OLEN 1".toList = some 0xC0010000#32 ∧ assembleText ".word 0xFFFFFFFF".toList = some 0xFFFFFFFF#32 ∧
  assembleText "QUINT 65536".toList = none ∧ assembleText "FMT 0, 2".toList = none ∧ assembleText "EXTR 5, 11".toList = none

/-! ## Responses and errors -/

/-- R61: a response that is not an error is this sum of its fields. -/
def Obligations.RespondDrivesItsFields : Prop :=
  ∀ (s : State) (v padch : Bool) (data : BitVec 24), ∃ t, respond s v padch data = .next t ∧ rspErr t.rsp = false ∧
    t.rsp.toNat = (0 <<< 31) ||| (v.toNat <<< 30) ||| (padch.toNat <<< 29) ||| (0 <<< 28) ||| (0 <<< 24) ||| data.toNat

/-- The spec's own derivation (R62, marked [derived] there):
the shape of every response. -/
def Obligations.EveryResponseHasItsShape : Prop :=
  ∀ s : State, s.inputsStable = true → ∃ t, step s = .next t ∧ RspShape t.rsp ∧
    (rspPadch t.rsp = true → rspV t.rsp = true ∧ ∃ idx pad, decode s.req = .ok (.fmt idx pad))

/-- R93: every request with OP 111 answers Err(1), whatever its other bits. -/
def Obligations.Op111AnswersErrOne : Prop :=
  (∀ (rest : BitVec 29) (s : State), AnswersUnread (.reservedOp111 rest) s 0x81000000#32) ∧
  (∀ s : State, s.inputsStable = true → s.req.toNat / 2 ^ 29 = 7 →
    ∃ t, step s = .next t ∧ t.rsp = 0x81000000#32 ∧ NoRead t ∧ EnvKept s t)

/-- R57, R94: a legal OP with a non-zero reserved bit answers Err(2). -/
def Obligations.ReservedBitsAnswerErrTwo : Prop :=
  ∀ s : State, s.inputsStable = true → s.req.toNat / 2 ^ 29 ≠ 7 →
    s.req &&& reservedBits (s.req.toNat / 2 ^ 29) ≠ 0 →
    ∃ t, step s = .next t ∧ t.rsp = 0x82000000#32 ∧ NoRead t ∧ EnvKept s t

/-- R95: QUINT, FMT and OLEN check LEN before any BUF read; BITPOS, COMB, EXTR and ALPHA never look at it. -/
def Obligations.LenIsCheckedByThreeRequests : Prop :=
  (∀ s : State, 40960 < s.len.toNat →
    (∀ idx, AnswersUnread (.quint idx) s 0x83000000#32) ∧
    (∀ idx pad, AnswersUnread (.fmt idx pad) s 0x83000000#32) ∧
    (∀ pad, AnswersUnread (.olen pad) s 0x83000000#32)) ∧
  (∀ (s : State) (n : BitVec 16) (i : Instr),
    ((∃ idx, i = .bitpos idx) ∨ (∃ lead trail, i = .comb lead trail) ∨ (∃ cnt ofs src, i = .extr cnt ofs src) ∨
      (∃ val, i = .alpha val)) →
    ∃ t t', exec i s = .next t ∧ exec i (s.driveLen n) = .next t' ∧ t'.rsp = t.rsp ∧ t.rsp ≠ 0x83000000#32)

/-- R97: EXTR answers Err(4) when `OFS + CNT > 16`; QUINT and FMT never do. -/
def Obligations.ExtrRangeAnswersErrFour : Prop :=
  (∀ (s : State) (cnt ofs : BitVec 5) (src : BitVec 16), 16 < ofs.toNat + cnt.toNat →
    AnswersUnread (.extr cnt ofs src) s 0x84000000#32) ∧
  (∀ (s : State) (idx : BitVec 16), ∃ t, exec (.quint idx) s = .next t ∧ t.rsp ≠ 0x84000000#32) ∧
  (∀ (s : State) (idx : BitVec 16) (pad : Bool), ∃ t, exec (.fmt idx pad) s = .next t ∧ t.rsp ≠ 0x84000000#32)

/-- R98: the first check that fails gives the one error reported; with none failing, the operation's
rule runs. -/
def Obligations.FirstFailingCheckIsReported : Prop :=
  ∀ s : State, s.inputsStable = true →
    let op := s.req.toNat / 2 ^ 29
    ∃ t, step s = .next t ∧
      if op = 7 then t.rsp = 0x81000000#32
      else if s.req &&& reservedBits op ≠ 0 then t.rsp = 0x82000000#32
      else if (op = 0 ∨ op = 5 ∨ op = 6) ∧ 40960 < s.len.toNat then t.rsp = 0x83000000#32
      else if op = 3 ∧ 16 < s.req.toNat / 2 ^ 16 % 2 ^ 5 + s.req.toNat / 2 ^ 24 % 2 ^ 5 then t.rsp = 0x84000000#32
      else ∃ i, decode s.req = .ok i ∧ exec i s = .next t ∧ rspErr t.rsp = false

/-- The spec's own derivation (R99, marked [derived] there):
with `n <= N_MAX` every legal QUINT, FMT and OLEN answers without error, whatever the bytes; past the end V = 0. -/
def Obligations.NoErrorDependsOnTheBytes : Prop :=
  ∀ s : State, s.len.toNat ≤ 40960 →
    (∀ idx, ∃ t, exec (.quint idx) s = .next t ∧ rspErr t.rsp = false ∧
      (qcnt s.len.toNat ≤ idx.toNat → rspV t.rsp = false)) ∧
    (∀ idx pad, ∃ t, exec (.fmt idx pad) s = .next t ∧ rspErr t.rsp = false ∧
      (outLen s.len.toNat pad ≤ idx.toNat → rspV t.rsp = false)) ∧
    (∀ pad, ∃ t, exec (.olen pad) s = .next t ∧ rspErr t.rsp = false)

/-- R91: an error drives RE0 = RE1 = 0 and the response `(1 << 31) | (code << 24)` with code 1 to 4, and it is the fault of
the request's issuer. -/
def Obligations.AnErrorIsOnlyItsResponse : Prop :=
  ∀ s t : State, s.inputsStable = true → step s = .next t → rspErr t.rsp = true →
    (∃ c : ErrCode, t.issuerFault = some c ∧ 1 ≤ c.ecode.toNat ∧ c.ecode.toNat ≤ 4 ∧
      t.rsp.toNat = (1 <<< 31) ||| (c.ecode.toNat <<< 24)) ∧ NoRead t ∧ EnvKept s t

/-- The spec's own derivation (R100, marked [derived] there):
after an error the next request is evaluated as if the erroneous one had never been presented. -/
def Obligations.ErrorsAreNotSticky : Prop :=
  ∀ (s t : State) (w : Word), s.inputsStable = true → step s = .next t → rspErr t.rsp = true →
    ∃ a b, step (s.present w) = .next a ∧ step (t.present w) = .next b ∧ SameOutputs a b

/-! ## The quintet extractor -/

/-- R68, its last sentence the spec's own derivation (marked [derived]): the index arithmetic is exact, every field of the
descriptor fits, and a quintet is in [0, 31]. -/
def Obligations.IndexArithmeticIsExact : Prop :=
  (∀ q : Nat, q ≤ 65535 → 5 * q ≤ 327675 ∧ 327675 < 2 ^ 19 ∧ primaryIndex q ≤ 40959 ∧ windowStart q ≤ 7 ∧
    4 ≤ off16 q ∧ off16 q ≤ 11) ∧
  (∀ n : Nat, n ≤ 40960 → 8 * n ≤ 327680 ∧ 327680 < 2 ^ 19 ∧ qcnt n ≤ 65536) ∧
  (∀ (input : List Byte) (q : Nat), streamQuintet input q ≤ 31) ∧
  (∀ (s : State) (idx : BitVec 16), ∃ t, exec (.bitpos idx) s = .next t ∧
    (rspData t.rsp).toNat % 2 ^ 16 = 5 * idx.toNat / 8 ∧ (rspData t.rsp).toNat / 2 ^ 17 % 2 ^ 3 = 5 * idx.toNat % 8 ∧
    (rspData t.rsp).toNat / 2 ^ 20 = 11 - 5 * idx.toNat % 8)

/-- The spec's own derivation (R66, marked [derived] there):
the descriptor repeats every 8 quintets, with the table's pattern. -/
def Obligations.DescriptorRepeatsEveryEight : Prop :=
  (∀ q : Nat, primaryIndex (q + 8) = primaryIndex q + 5 ∧ windowStart (q + 8) = windowStart q) ∧
  (∀ q : Nat, primaryIndex q = 5 * (q / 8) + [0, 0, 1, 1, 2, 3, 3, 4].getD (q % 8) 0 ∧
    windowStart q = [0, 5, 2, 7, 4, 1, 6, 3].getD (q % 8) 0 ∧
    spans q = [false, true, false, true, true, false, true, false].getD (q % 8) false ∧
    off16 q = [11, 6, 9, 4, 7, 10, 5, 8].getD (q % 8) 0 ∧
    (spans q = false → off8 q = [3, 0, 1, 0, 0, 2, 0, 0].getD (q % 8) 0)) ∧
  (∀ (s : State) (idx : BitVec 16), idx.toNat + 8 ≤ 65535 →
    ∃ t t', exec (.bitpos idx) s = .next t ∧ exec (.bitpos (idx + 8)) s = .next t' ∧
      (rspData t'.rsp).toNat = (rspData t.rsp).toNat + 5)

/-- R70: BITPOS's result, for every index and every state, with no BUF read. -/
def Obligations.BitposAnswersTheDescriptor : Prop :=
  ∀ (s : State) (idx : BitVec 16),
    let q := idx.toNat
    let span := if 3 < 5 * q % 8 then 1 else 0
    AnswersUnread (.bitpos idx) s
      (BitVec.ofNat 32 ((1 <<< 30) ||| (((11 - 5 * q % 8) <<< 20) ||| ((5 * q % 8) <<< 17) ||| (span <<< 16) ||| (5 * q / 8))))

/-- R71: COMB's result, for every pair of bytes and every state, with no BUF read. -/
def Obligations.CombConcatenatesItsBytes : Prop :=
  ∀ (s : State) (lead trail : Byte),
    AnswersUnread (.comb lead trail) s
      (BitVec.ofNat 32 ((1 <<< 30) ||| ((lead.toNat <<< 8) ||| trail.toNat)))

/-- R72: EXTR's result, and the error where its operands leave the 16-bit source. -/
def Obligations.ExtrExtractsItsField : Prop :=
  ∀ (s : State) (cnt ofs : BitVec 5) (src : BitVec 16),
    (ofs.toNat + cnt.toNat ≤ 16 → AnswersUnread (.extr cnt ofs src) s
      (BitVec.ofNat 32 ((1 <<< 30) ||| ((src.toNat >>> ofs.toNat) &&& (2 ^ cnt.toNat - 1))))) ∧
    (16 < ofs.toNat + cnt.toNat → AnswersUnread (.extr cnt ofs src) s 0x84000000#32)

/-- R73: QUINT's result from the primary and the secondary byte, V = 0 past the last quintet, and the LEN check. -/
def Obligations.QuintAnswersItsWindow : Prop :=
  ∀ (s : State) (idx : BitVec 16), (40960 < s.len.toNat → AnswersUnread (.quint idx) s 0x83000000#32) ∧
    (s.len.toNat ≤ 40960 →
    let q := idx.toNat
    let n := s.len.toNat
    let p := 5 * q / 8
    let st := 5 * q % 8
    let hi := if p < n then (s.buf.read p).toNat else 0
    let lo := if 3 < st then (if p + 1 < n then (s.buf.read (p + 1)).toNat else 0) else 0
    (q < (8 * n + 4) / 5 → Answers (.quint idx) s
      (BitVec.ofNat 32 ((1 <<< 30) ||| ((((hi <<< 8) ||| lo) >>> (11 - st)) &&& 0x1F)))) ∧
    ((8 * n + 4) / 5 ≤ q → AnswersUnread (.quint idx) s 0x00000000#32))

/-- R67: QUINT gives the five stream bits of its index, the first the most significant, with zeros past the last byte. -/
def Obligations.QuintIsTheStreamQuintet : Prop :=
  ∀ (s : State) (idx : BitVec 16), s.len.toNat ≤ 40960 → idx.toNat < (8 * s.len.toNat + 4) / 5 →
    Answers (.quint idx) s (BitVec.ofNat 32 ((1 <<< 30) ||| streamQuintet s.input idx.toNat))

/-- The spec's own derivation (R74, marked [derived] there):
QUINT equals the source's path BITPOS, COMB, EXTR, and without a spanning window the primary byte's own bits. -/
def Obligations.QuintEqualsTheSourcePath : Prop :=
  ∀ (s : State) (idx : BitVec 16), s.len.toNat ≤ 40960 → idx.toNat < qcnt s.len.toNat →
    ∃ tq tb tc te, exec (.quint idx) s = .next tq ∧ exec (.bitpos idx) s = .next tb ∧
      exec (.comb (s.byteAt (5 * idx.toNat / 8)) (s.byteAt (5 * idx.toNat / 8 + 1))) s = .next tc ∧
      exec (.extr 5#5 (BitVec.ofNat 5 ((rspData tb.rsp).toNat / 2 ^ 20)) ((rspData tc.rsp).setWidth 16)) s = .next te ∧
      te.rsp = tq.rsp ∧ rspErr te.rsp = false ∧
      (rspData tq.rsp).toNat = streamQuintet s.input idx.toNat ∧
      (5 * idx.toNat % 8 ≤ 3 → (rspData tq.rsp).toNat =
        ((s.byteAt (5 * idx.toNat / 8)).toNat >>> (3 - 5 * idx.toNat % 8)) &&& 0x1F)

/-- The spec's own derivation (R69, marked [derived] there):
the primary byte is always real; the secondary is missing only for a spanning final quintet, which then holds the
stated number of real bits. -/
def Obligations.OnlyTheFinalQuintetIsFilled : Prop :=
  ∀ (s : State) (idx : BitVec 16), s.len.toNat ≤ 40960 → idx.toNat < qcnt s.len.toNat →
    let n := s.len.toNat
    let q := idx.toNat
    primaryIndex q < n ∧
    (primaryIndex q + 1 = n ∧ spans q = true ↔ q + 1 = qcnt n ∧ 8 * n % 5 ≠ 0) ∧
    (q + 1 = qcnt n → 8 * n % 5 = 0 → q % 8 = 7 ∧ spans q = false) ∧
    8 * n - 5 * (qcnt n - 1) = [5, 3, 1, 4, 2].getD (n % 5) 0 ∧
    ∃ t, exec (.quint idx) s = .next t ∧ t.port0.re = true ∧
      (spans q = true → (t.port1.re = false ↔ q + 1 = qcnt n ∧ 8 * n % 5 ≠ 0))

/-! ## The alphabet mapper and the output formatter -/

/-- R80, R39: ALPHA gives the code of the ROM's character, `A` + v for v up to 25 and `2` + (v - 26) above, with no BUF
read. -/
def Obligations.AlphaAnswersItsCharacter : Prop :=
  ∀ (s : State) (val : BitVec 5),
    AnswersUnread (.alpha val) s
      (BitVec.ofNat 32 ((1 <<< 30) ||| (if val.toNat ≤ 25 then 0x41 + val.toNat else 0x32 + (val.toNat - 26))))

/-- R77, its last sentence the spec's own derivation (marked [derived]): the pad character is 0x3D and no entry of the
alphabet ROM, so the code alone shows a pad. -/
def Obligations.PadIsNoAlphabetCharacter : Prop :=
  padCode = 0x3D#8 ∧ (∀ v : BitVec 5, romRead v ≠ padCode) ∧
  (∀ (s : State) (idx : BitVec 16) (pad : Bool), s.len.toNat ≤ 40960 →
    ∃ t, exec (.fmt idx pad) s = .next t ∧ (rspPadch t.rsp = true ↔ rspData t.rsp = 0x3D#24))

/-- R81: FMT's three cases, with the reads of QUINT in the first and none in the others, and the LEN check. -/
def Obligations.FmtAnswersItsPosition : Prop :=
  ∀ (s : State) (idx : BitVec 16) (pad : Bool), (40960 < s.len.toNat → AnswersUnread (.fmt idx pad) s 0x83000000#32) ∧
    (s.len.toNat ≤ 40960 →
    let k := idx.toNat
    let n := s.len.toNat
    (k < (8 * n + 4) / 5 →
      ∃ t tq, exec (.fmt idx pad) s = .next t ∧ exec (.quint idx) s = .next tq ∧
        t.rsp = BitVec.ofNat 32 ((1 <<< 30) ||| (romRead (BitVec.ofNat 5 (rspData tq.rsp).toNat)).toNat) ∧
        SameOutputs { t with rsp := tq.rsp } tq ∧ EnvKept s t) ∧
    ((8 * n + 4) / 5 ≤ k → pad = true → k < 8 * (((8 * n + 4) / 5 + 7) / 8) → AnswersUnread (.fmt idx pad) s 0x6000003D#32) ∧
    ((8 * n + 4) / 5 ≤ k → (pad = true → 8 * (((8 * n + 4) / 5 + 7) / 8) ≤ k) → AnswersUnread (.fmt idx pad) s 0x00000000#32))

/-- R82: OLEN's result, which needs no BUF read, and the LEN check. -/
def Obligations.OlenAnswersTheLength : Prop :=
  ∀ (s : State) (pad : Bool), (40960 < s.len.toNat → AnswersUnread (.olen pad) s 0x83000000#32) ∧
    (s.len.toNat ≤ 40960 → AnswersUnread (.olen pad) s
      (BitVec.ofNat 32 ((1 <<< 30) ||| (if pad then 8 * (((8 * s.len.toNat + 4) / 5 + 7) / 8) else (8 * s.len.toNat + 4) / 5))))

/-- R78: the unpadded length is `ceil(8n/5)`; the padded length is the least multiple of 8 not below it, and equals it
exactly when it is a multiple of 8 already. -/
def Obligations.PaddedLengthIsLeastMultipleOfEight : Prop :=
  ∀ n : Nat, outLen n false = (8 * n + 4) / 5 ∧ outLen n true = 8 * ((outLen n false + 7) / 8) ∧
    outLen n true % 8 = 0 ∧ outLen n false ≤ outLen n true ∧
    (∀ m, m % 8 = 0 → outLen n false ≤ m → outLen n true ≤ m) ∧
    (outLen n true = outLen n false ↔ outLen n false % 8 = 0)

/-- The spec's own derivation (R79, marked [derived] there):
the lengths and the number of pads by `n mod 5`, as OLEN reports them. -/
def Obligations.PadsDependOnLengthModFive : Prop :=
  ∀ s : State, s.len.toNat ≤ 40960 →
    let n := s.len.toNat
    ∃ t0 t1, exec (.olen false) s = .next t0 ∧ exec (.olen true) s = .next t1 ∧
      (rspData t0.rsp).toNat = 8 * (n / 5) + [0, 2, 4, 5, 7].getD (n % 5) 0 ∧
      (rspData t1.rsp).toNat = 8 * (n / 5) + [0, 8, 8, 8, 8].getD (n % 5) 0 ∧
      (rspData t1.rsp).toNat - (rspData t0.rsp).toNat = [0, 6, 4, 3, 1].getD (n % 5) 0

/-! ## The encode observation -/

/-- The spec's own derivation (R83, marked [derived] there):
the encode collects `OLEN` characters, character `k` being DATA[7:0] of the response to `FMT k, pad`, which has
ERR = 0 and V = 1; for `k >= OLEN` the response has V = 0. -/
def Obligations.EncodeCollectsTheFmtCharacters : Prop :=
  ∀ (s : State) (pad : Bool), s.inputsStable = true → s.len.toNat ≤ 40960 →
    ∃ E : List Byte, encodeObs pad s = .ok E ∧ E.length = outLen s.len.toNat pad ∧
      ∀ idx : BitVec 16, ∃ t, exec (.fmt idx pad) s = .next t ∧ rspErr t.rsp = false ∧
        (idx.toNat < E.length → rspV t.rsp = true ∧ E[idx.toNat]? = some ((rspData t.rsp).setWidth 8)) ∧
        (E.length ≤ idx.toNat → rspV t.rsp = false)

/-- On a set-up block the encode program collects the Base32 text of the input bytes, as the stream of R67, the
alphabet of R39 and the pads of R78 define it. -/
def Obligations.EncodeIsBase32OfTheInput : Prop :=
  ∀ (s : State) (pad : Bool), s.inputsStable = true → s.len.toNat ≤ 40960 →
    encodeObs pad s = .ok (base32 s.input pad)

/-- From any state, the set-up of R113 followed by the encode program of R83 gives the Base32 text of the bytes. The byte by
byte writes from address 0 up are the model's set-up, inferred from R113 (log entry 19). -/
def Obligations.SetUpThenEncodeIsBase32 : Prop :=
  ∀ (s : State) (bytes : List Byte) (pad : Bool), bytes.length ≤ 40960 →
    ∃ t, s.setUp bytes = .next t ∧ t.input = bytes ∧ encodeObs pad t = .ok (base32 bytes pad)

/-- The spec's own derivation (R84, marked [derived] there):
the length of the encode, and when padding changes it. -/
def Obligations.EncodeLengthIsStated : Prop :=
  ∀ s : State, s.inputsStable = true → s.len.toNat ≤ 40960 →
    ∃ E0 E1 : List Byte, encodeObs false s = .ok E0 ∧ encodeObs true s = .ok E1 ∧
      E0.length = (8 * s.len.toNat + 4) / 5 ∧ E1.length = 8 * (((8 * s.len.toNat + 4) / 5 + 7) / 8) ∧
      E1.length % 8 = 0 ∧ (E1.length = E0.length ↔ E0.length % 8 = 0)

/-- The spec's own derivation (R85, marked [derived] there):
every character is a ROM code or the pad, and after a pad come only pads. -/
def Obligations.PadsFormASuffix : Prop :=
  ∀ (s : State) (pad : Bool), s.inputsStable = true → s.len.toNat ≤ 40960 →
    ∃ E : List Byte, encodeObs pad s = .ok E ∧ (∀ c ∈ E, c ∈ alphabetRom ∨ c = 0x3D#8) ∧
      ∀ j k : Nat, k ≤ j → j < E.length → E[k]? = some 0x3D#8 → E[j]? = some 0x3D#8

/-- The spec's own derivation (R86, marked [derived] there):
the unpadded encode is a prefix of the padded one, and below QCNT the two FMT responses are equal. -/
def Obligations.UnpaddedIsAPrefixOfPadded : Prop :=
  ∀ s : State, s.inputsStable = true → s.len.toNat ≤ 40960 →
    (∃ E0 E1 : List Byte, encodeObs false s = .ok E0 ∧ encodeObs true s = .ok E1 ∧ E0 <+: E1) ∧
    ∀ idx : BitVec 16, idx.toNat < qcnt s.len.toNat →
      ∃ t0 t1, exec (.fmt idx false) s = .next t0 ∧ exec (.fmt idx true) s = .next t1 ∧ t0.rsp = t1.rsp

/-- The spec's own derivation (R87, marked [derived] there):
the empty input has length 0 and encodes to the empty string, padded or not. -/
def Obligations.EmptyInputEncodesToNothing : Prop :=
  ∀ (s : State) (pad : Bool), s.inputsStable = true → s.len = 0#16 →
    AnswersUnread (.olen pad) s 0x40000000#32 ∧ encodeObs pad s = .ok []

/-- The spec's own derivation (R88, marked [derived] there):
encodes of the same bytes with the same length and pad are the same, whatever else the states hold. -/
def Obligations.SameInputEncodesTheSame : Prop :=
  ∀ (s s' : State) (pad : Bool), s.inputsStable = true → s'.inputsStable = true → s.len = s'.len →
    (∀ a, a < s.len.toNat → s.buf.read a = s'.buf.read a) → encodeObs pad s = encodeObs pad s'

/-- The encode is refused by name where its premises fail: inputs not held stable (U4), or a length over N_MAX, whose OLEN
answers Err(3) (R91, R96). That the observation stops so, and by these names, is the model's, inferred from U4 and R91 (log
entry 15). -/
def Obligations.EncodeStopsOutsideItsPremises : Prop :=
  (∀ (s : State) (pad : Bool), s.inputsStable = false → encodeObs pad s = .error .inputsNotStable) ∧
  (∀ (s : State) (pad : Bool), s.inputsStable = true → 40960 < s.len.toNat →
    encodeObs pad s = .error (.errResponse 3#4))

/-- R89: the source's concrete vectors. -/
def Obligations.ConcreteVectorsAreReproduced : Prop :=
  ∀ s : State,
    (∀ pad, ∃ t, s.setUp [0x68#8, 0x65#8, 0x6C#8, 0x6C#8, 0x6F#8] = .next t ∧
      encodeObs pad t = .ok [0x4E#8, 0x42#8, 0x53#8, 0x57#8, 0x59#8, 0x33#8, 0x44#8, 0x50#8]) ∧
    (∃ t, s.setUp [0x5A#8] = .next t ∧ encodeObs false t = .ok [0x4C#8, 0x49#8] ∧
      encodeObs true t = .ok [0x4C#8, 0x49#8, 0x3D#8, 0x3D#8, 0x3D#8, 0x3D#8, 0x3D#8, 0x3D#8]) ∧
    (∃ t, s.setUp [0x74#8, 0xF7#8] = .next t ∧
      Answers (.quint 0) t 0x4000000E#32 ∧ Answers (.quint 1) t 0x40000013#32 ∧
      Answers (.quint 2) t 0x4000001B#32 ∧ Answers (.quint 3) t 0x40000010#32 ∧ Answers (.quint 4) t 0x00000000#32) ∧
    (∃ t, s.setUp [0xFF#8] = .next t ∧
      Answers (.quint 0) t 0x4000001F#32 ∧ Answers (.quint 1) t 0x4000001C#32 ∧ Answers (.quint 2) t 0x00000000#32) ∧
    Answers (.bitpos 4) s 0x40790002#32 ∧
    (∀ pad, ∃ t, s.setUp [] = .next t ∧ encodeObs pad t = .ok [])

/-! ## State, ports and memory -/

/-- R16: the same REQ, LEN and BUF give the same outputs, whatever was presented before. -/
def Obligations.ResponseIsAFunctionOfTheInputs : Prop :=
  ∀ s s' : State, s.inputsStable = true → s'.inputsStable = true → s.req = s'.req → s.len = s'.len →
    (∀ a, s.buf.read a = s'.buf.read a) →
    ∃ t t', step s = .next t ∧ step s' = .next t' ∧ SameOutputs t t'

/-- The spec's own derivation (R17, marked [derived] there):
BUF reaches a response only through bytes `p` and `p + 1` of the index, below LEN, and only for QUINT and FMT. -/
def Obligations.OnlyTheWindowBytesReachAResponse : Prop :=
  ∀ s s' : State, s.inputsStable = true → s'.inputsStable = true → s.req = s'.req → s.len = s'.len →
    (∀ a, a < s.len.toNat → (s.req.toNat / 2 ^ 29 = 0 ∨ s.req.toNat / 2 ^ 29 = 5) →
      (a = 5 * (s.req.toNat % 2 ^ 16) / 8 ∨ a = 5 * (s.req.toNat % 2 ^ 16) / 8 + 1) →
      s.buf.read a = s'.buf.read a) →
    ∃ t t', step s = .next t ∧ step s' = .next t' ∧ t.rsp = t'.rsp

/-- The read ports of every request (R19): the enables, and the address on each port that is enabled. On a port that is not
enabled the address is any value (D25, U6), so nothing is said of it. -/
def Obligations.ReadPortsFollowTheRequest : Prop :=
  (∀ (s : State) (idx : BitVec 16), s.len.toNat ≤ 40960 →
    ∃ t, exec (.quint idx) s = .next t ∧
      (t.port0.re = true ↔ 5 * idx.toNat / 8 < s.len.toNat) ∧
      (t.port0.re = true → t.port0.ra.toNat = 5 * idx.toNat / 8) ∧
      (t.port1.re = true ↔ 3 < 5 * idx.toNat % 8 ∧ 5 * idx.toNat / 8 + 1 < s.len.toNat) ∧
      (t.port1.re = true → t.port1.ra.toNat = 5 * idx.toNat / 8 + 1)) ∧
  (∀ (s : State) (idx : BitVec 16) (pad : Bool), s.len.toNat ≤ 40960 → idx.toNat < qcnt s.len.toNat →
    ∃ t, exec (.fmt idx pad) s = .next t ∧
      (t.port0.re = true ↔ 5 * idx.toNat / 8 < s.len.toNat) ∧
      (t.port0.re = true → t.port0.ra.toNat = 5 * idx.toNat / 8) ∧
      (t.port1.re = true ↔ 3 < 5 * idx.toNat % 8 ∧ 5 * idx.toNat / 8 + 1 < s.len.toNat) ∧
      (t.port1.re = true → t.port1.ra.toNat = 5 * idx.toNat / 8 + 1)) ∧
  (∀ s : State, s.inputsStable = true → ∃ t, step s = .next t ∧
    (rspErr t.rsp = true ∨ (∀ idx, decode s.req ≠ .ok (.quint idx)) ∧
      (∀ idx pad, decode s.req = .ok (.fmt idx pad) → qcnt s.len.toNat ≤ idx.toNat) → NoRead t))

/-- The spec's own derivation (R28, marked [derived] there):
an enabled port never carries an unmapped address, and an enabled read is below LEN and returns that byte (R29). -/
def Obligations.ReadsStayInsideTheInput : Prop :=
  ∀ s : State, s.inputsStable = true → ∃ t, step s = .next t ∧ PortOk t t.port0 ∧ PortOk t t.port1

/-- No request changes BUF (R30), or the REQ and LEN the environment drives (R18, R26): the frame of every instruction and
every step. That REQ stays on its port after a step is the model's, inferred from R21 (log entry 18), and that the stability
duty stays as it is is the model's choice (log entry 6). -/
def Obligations.RequestsLeaveTheEnvironmentAlone : Prop :=
  (∀ (i : Instr) (s : State), ∃ t, exec i s = .next t ∧ EnvKept s t) ∧
  (∀ s : State, ∃ t, step s = .next t ∧ EnvKept s t)

/-- The spec's own derivations (R118, R119, marked [derived] there):
every request ends with exactly one response, and an encode presents `1 + OLEN(n, pad)` requests, at most 65537: one OLEN,
then FMT for each position in order. Each is one evaluation: the model's counter of evaluations (log entry 7) rises by
exactly the number presented. -/
def Obligations.EveryRequestEndsWithOneResponse : Prop :=
  (∀ s : State, ∃ t, step s = .next t ∧ ∀ t', step s = .next t' → t' = t) ∧
  (∀ (s : State) (pad : Bool), s.inputsStable = true → s.len.toNat ≤ 40960 →
    ∃ xs t, encodeRun pad s = .ok (xs, t) ∧ encodeObs pad s = .ok (xs.tail.map Exchange.character) ∧
      xs.map Exchange.request =
        .olen pad :: (List.range (outLen s.len.toNat pad)).map (fun k => .fmt (BitVec.ofNat 16 k) pad) ∧
      xs.length = 1 + outLen s.len.toNat pad ∧ xs.length ≤ 65537 ∧ t.freeCount = s.freeCount + xs.length)

/-- Every step keeps the invariant: BUF canonical, the response well shaped, every enabled port reading the input. -/
def Obligations.StepKeepsTheInvariant : Prop :=
  ∀ s s' : State, Inv s → step s = .next s' → Inv s'

/-- The power-up state meets the invariant. Its input values are the model's choice (log entries 3, 4 and 5). -/
def Obligations.ResetMeetsTheInvariant : Prop := Inv State.reset

/-- The outputs at power-up are the function of the inputs that R112 asks for. The inputs themselves, REQ = 0 and LEN = 0,
are the model's choice (log entries 3 and 4), so this is the model's and not the spec's. -/
def Obligations.ResetOutputsFollowTheInputs : Prop :=
  ∃ t, step State.reset = .next t ∧ SameOutputs State.reset t

/-- An evaluation with inputs that are not held stable answers, and it leaves the environment's state alone. Its response
is any value: nothing is said of it (R115, U3). That it answers, and that the environment's state and its duty bit stay as
they are, is the model's (log entry 6: the duty bit's staying is a DESIGN CHOICE). RequestsLeaveTheEnvironmentAlone says
the frame of every step; this one says it of the evaluation that the spec leaves open. -/
def Obligations.UnstableInputsStillAnswer : Prop :=
  ∀ s : State, s.inputsStable = false → ∃ t, step s = .next t ∧ EnvKept s t

/-- The environment's write of a mapped byte is what a later read returns, it changes no other byte, and it keeps the
canonical form; an unmapped address does not exist (R28, R29, R41), and stopping a write to one by name is the model's choice
(log entry 13). -/
def Obligations.WrittenBytesAreReadBack : Prop :=
  (∀ (s : State) (a : Nat) (v : Byte), a < 0xA000 →
    ∃ t, s.writeBuf a v = .next t ∧ memRead t a = .ok v ∧ (∀ b, b ≠ a → t.buf.read b = s.buf.read b) ∧
      (s.buf.wf = true → t.buf.wf = true) ∧ t.req = s.req ∧ t.len = s.len ∧ t.rsp = s.rsp) ∧
  (∀ (s : State) (a : Nat) (v : Byte), 0xA000 ≤ a →
    s.writeBuf a v = .fault (.bufUnmapped a) ∧ memRead s a = .error (.bufUnmapped a))

/-- The canonical form of BUF: memories that read the same at every address are the same list. -/
def Obligations.EqualContentsAreEqualMemories : Prop :=
  ∀ m m' : Memory, m.wf = true → m'.wf = true → (∀ a, m.read a = m'.read a) → m = m'
end

