-- ==== Sys2Proof/Laws/Assembler.lean ====
section
/-! SUPPORT. What the text reader's functions do, said once each (R63). -/

namespace Sys2Proof.Machine

theorem digitValue_digitChar {base d : Nat} (hb : base ≤ 16) (hd : d < base) :
    digitValue base (Nat.digitChar d) = some d := by
  interval_cases base <;> first | omega | (interval_cases d <;> decide)

/-- Digits are read as their value in the base, the first the most significant. -/
theorem readDigits_map_digitChar {base : Nat} (hb : base ≤ 16) (ds : List Nat) (h : ∀ d ∈ ds, d < base) (acc : Nat) :
    readDigits base acc (ds.map Nat.digitChar) = some (ds.foldl (fun v d => base * v + d) acc) := by
  induction ds generalizing acc with
  | nil => rfl
  | cons d ds ih =>
    simp only [List.map_cons, readDigits, digitValue_digitChar hb (h d (by simp)), List.foldl_cons]
    rw [ih (fun x hx => h x (by simp [hx])), Nat.mul_comm]

theorem splitCommas_of_no_comma {piece : List Char} (h : ∀ c ∈ piece, c ≠ ',') : splitCommas piece = [piece] := by
  induction piece with
  | nil => rfl
  | cons c cs ih => simp [splitCommas, h c (by simp), ih (fun x hx => h x (by simp [hx]))]

theorem splitCommas_append {piece : List Char} (rest : List Char) (h : ∀ c ∈ piece, c ≠ ',') :
    splitCommas (piece ++ ',' :: rest) = piece :: splitCommas rest := by
  induction piece with
  | nil => simp [splitCommas]
  | cons c cs ih => simp [splitCommas, h c (by simp), ih (fun x hx => h x (by simp [hx]))]

theorem dropWhile_isBlank {cs : List Char} (h : ∀ c ∈ cs, isBlank c = false) : cs.dropWhile isBlank = cs := by
  cases cs with
  | nil => rfl
  | cons c cs => simp [h c (by simp)]

/-- Trimming takes away the blank before a piece that has none inside. -/
theorem trimBlanks_space {cs : List Char} (h : ∀ c ∈ cs, isBlank c = false) : trimBlanks (' ' :: cs) = cs := by
  have hb : isBlank ' ' = true := rfl
  rw [trimBlanks, List.dropWhile_cons, if_pos hb, dropWhile_isBlank h, dropWhile_isBlank (by simpa using h)]
  simp

end Sys2Proof.Machine
end

