-- ==== Sys2Proof/Laws/Decode.lean ====
section
/-! SUPPORT. Lemmas about the decoder: what a decoded word is, its OP, and what the reserved-bit check says of its bits. -/

namespace Sys2Proof

/-- A word decodes exactly when its reserved bits are zero, and then to its fields. -/
theorem decode_ok_iff (w : Word) (i : Instr) :
    decode w = .ok i ↔ w &&& rsvdMask (opField w) = 0 ∧ i = decodeFields w := by
  unfold decode
  split <;> simp_all [eq_comm]

theorem decode_error_iff (w : Word) (r : Reject) : decode w = .error r ↔ w &&& rsvdMask (opField w) ≠ 0 := by
  cases r
  unfold decode
  split <;> simp_all

theorem opField_toNat (w : Word) : (opField w).toNat = w.toNat / 2 ^ 29 := by
  simp only [opField, BitVec.extractLsb'_toNat, Nat.shiftRight_eq_div_pow]
  omega

theorem opField_cases (w : Word) :
    opField w = 0 ∨ opField w = 1 ∨ opField w = 2 ∨ opField w = 3 ∨ opField w = 4 ∨ opField w = 5 ∨ opField w = 6 ∨
      opField w = 7 := by
  generalize opField w = op
  revert op
  decide

/-- The three bits of the OP field. -/
theorem op_bits {w : Word} {op : BitVec 3} (h : opField w = op) :
    w.getLsbD 29 = op.getLsbD 0 ∧ w.getLsbD 30 = op.getLsbD 1 ∧ w.getLsbD 31 = op.getLsbD 2 := by
  subst h
  simp [opField]

/-- A bit that a mask selects is zero where the masked word is. -/
theorem bit_of_masked_zero {w m : Word} (h : w &&& m = 0) {j : Nat} (hj : m.getLsbD j = true) : w.getLsbD j = false := by
  have := congrArg (fun x : Word => x.getLsbD j) h
  simpa [hj] using this

end Sys2Proof
end

