-- ==== Sys2Proof/Laws/State.lean ====
section
/-! SUPPORT. One lemma per field per update of State, true by rfl, so that no proof unfolds a record update. -/

namespace Sys2Proof.Machine.State

variable (s : State)

@[simp] theorem settle_req (p0 p1 : ReadPort) (w : Word) : (s.settle p0 p1 w).req = s.req := rfl
@[simp] theorem settle_len (p0 p1 : ReadPort) (w : Word) : (s.settle p0 p1 w).len = s.len := rfl
@[simp] theorem settle_buf (p0 p1 : ReadPort) (w : Word) : (s.settle p0 p1 w).buf = s.buf := rfl
@[simp] theorem settle_inputsStable (p0 p1 : ReadPort) (w : Word) : (s.settle p0 p1 w).inputsStable = s.inputsStable := rfl
@[simp] theorem settle_port0 (p0 p1 : ReadPort) (w : Word) : (s.settle p0 p1 w).port0 = p0 := rfl
@[simp] theorem settle_port1 (p0 p1 : ReadPort) (w : Word) : (s.settle p0 p1 w).port1 = p1 := rfl
@[simp] theorem settle_rsp (p0 p1 : ReadPort) (w : Word) : (s.settle p0 p1 w).rsp = w := rfl
@[simp] theorem settle_freeCount (p0 p1 : ReadPort) (w : Word) : (s.settle p0 p1 w).freeCount = s.freeCount + 1 := rfl

@[simp] theorem present_req (w : Word) : (s.present w).req = w := rfl
@[simp] theorem present_len (w : Word) : (s.present w).len = s.len := rfl
@[simp] theorem present_buf (w : Word) : (s.present w).buf = s.buf := rfl
@[simp] theorem present_inputsStable (w : Word) : (s.present w).inputsStable = s.inputsStable := rfl
@[simp] theorem present_port0 (w : Word) : (s.present w).port0 = s.port0 := rfl
@[simp] theorem present_port1 (w : Word) : (s.present w).port1 = s.port1 := rfl
@[simp] theorem present_rsp (w : Word) : (s.present w).rsp = s.rsp := rfl
@[simp] theorem present_freeCount (w : Word) : (s.present w).freeCount = s.freeCount := rfl

@[simp] theorem driveLen_req (n : BitVec 16) : (s.driveLen n).req = s.req := rfl
@[simp] theorem driveLen_len (n : BitVec 16) : (s.driveLen n).len = n := rfl
@[simp] theorem driveLen_buf (n : BitVec 16) : (s.driveLen n).buf = s.buf := rfl
@[simp] theorem driveLen_inputsStable (n : BitVec 16) : (s.driveLen n).inputsStable = s.inputsStable := rfl
@[simp] theorem driveLen_port0 (n : BitVec 16) : (s.driveLen n).port0 = s.port0 := rfl
@[simp] theorem driveLen_port1 (n : BitVec 16) : (s.driveLen n).port1 = s.port1 := rfl
@[simp] theorem driveLen_rsp (n : BitVec 16) : (s.driveLen n).rsp = s.rsp := rfl
@[simp] theorem driveLen_freeCount (n : BitVec 16) : (s.driveLen n).freeCount = s.freeCount := rfl

@[simp] theorem holdInputs_req (b : Bool) : (s.holdInputs b).req = s.req := rfl
@[simp] theorem holdInputs_len (b : Bool) : (s.holdInputs b).len = s.len := rfl
@[simp] theorem holdInputs_buf (b : Bool) : (s.holdInputs b).buf = s.buf := rfl
@[simp] theorem holdInputs_inputsStable (b : Bool) : (s.holdInputs b).inputsStable = b := rfl
@[simp] theorem holdInputs_port0 (b : Bool) : (s.holdInputs b).port0 = s.port0 := rfl
@[simp] theorem holdInputs_port1 (b : Bool) : (s.holdInputs b).port1 = s.port1 := rfl
@[simp] theorem holdInputs_rsp (b : Bool) : (s.holdInputs b).rsp = s.rsp := rfl
@[simp] theorem holdInputs_freeCount (b : Bool) : (s.holdInputs b).freeCount = s.freeCount := rfl

@[simp] theorem request_eq : s.request = s.req := rfl
@[simp] theorem request_present (w : Word) : (s.present w).request = w := rfl
@[simp] theorem idlePort0_re : s.idlePort0.re = false := rfl
@[simp] theorem idlePort1_re : s.idlePort1.re = false := rfl

end Sys2Proof.Machine.State
end

