-- ==== Sys2Proof/Laws/Ops.lean ====
section
/-! SUPPORT. What each shared operation can do, said once. -/

namespace Sys2Proof.Machine

theorem respondReading_eq (s : State) (p0 p1 : ReadPort) (v padch : Bool) (data : BitVec 24) :
    respondReading s p0 p1 v padch data = .next (s.settle p0 p1 (resultRsp v padch data)) := rfl

theorem respond_eq (s : State) (v padch : Bool) (data : BitVec 24) :
    respond s v padch data = .next (s.settle s.idlePort0 s.idlePort1 (resultRsp v padch data)) := rfl

theorem raiseErr_eq (s : State) (c : ErrCode) :
    raiseErr s c = .next (s.settle s.idlePort0 s.idlePort1 (errRsp c)) := rfl

theorem checkLen_of_le {s : State} (h : s.len.toNat ≤ Config.nMax) (k : Result) : checkLen s k = k := by
  simp [checkLen, Nat.not_lt.2 h]

theorem checkLen_of_gt {s : State} (h : Config.nMax < s.len.toNat) (k : Result) :
    checkLen s k = raiseErr s .lenRange := by
  simp [checkLen, h]

theorem memRead_of_mapped {s : State} {a : Nat} (h : a < Config.nMax) : memRead s a = .ok (s.buf.read a) := by
  simp [memRead, h]

@[simp] theorem readEnable_eq_true {s : State} {used : Bool} {a : Nat} :
    readEnable s used a = true ↔ used = true ∧ a < s.len.toNat := by
  simp [readEnable]

@[simp] theorem readEnable_eq_false {s : State} {used : Bool} {a : Nat} :
    readEnable s used a = false ↔ (used = true → s.len.toNat ≤ a) := by
  simp [readEnable]

/-- What a driven port holds: used and below LEN, it is enabled and carries the byte of BUF; else it stands as `idle`. -/
def drivenPort (s : State) (used : Bool) (a : Nat) (idle : ReadPort) : ReadPort :=
  if readEnable s used a then { re := true, ra := BitVec.ofNat 16 a, rd := s.buf.read a } else idle

theorem drivenPort_of_enabled {s : State} {used : Bool} {a : Nat} (idle : ReadPort) (h : readEnable s used a = true) :
    drivenPort s used a idle = { re := true, ra := BitVec.ofNat 16 a, rd := s.buf.read a } := by
  simp only [drivenPort, h, if_true]

theorem drivenPort_of_disabled {s : State} {used : Bool} {a : Nat} (idle : ReadPort) (h : readEnable s used a = false) :
    drivenPort s used a idle = idle := by
  simp only [drivenPort, h, if_false, Bool.false_eq_true]

theorem drivenPort_re {s : State} {used : Bool} {a : Nat} {idle : ReadPort} (hi : idle.re = false) :
    (drivenPort s used a idle).re = readEnable s used a := by
  cases h : readEnable s used a
  · rw [drivenPort_of_disabled idle h, hi]
  · rw [drivenPort_of_enabled idle h]

/-- No request that passed the LEN check reads an unmapped address (R28). -/
theorem drivePort_eq {s : State} (h : s.len.toNat ≤ Config.nMax) (used : Bool) (a : Nat) (idle : ReadPort) :
    drivePort s used a idle = .ok (drivenPort s used a idle) := by
  cases hu : readEnable s used a
  · simp only [drivePort, drivenPort, hu, if_false, Bool.false_eq_true]
  · have ha : a < Config.nMax := (readEnable_eq_true.1 hu).2.trans_le h
    simp only [drivePort, drivenPort, hu, if_true, memRead_of_mapped ha]

/-- The byte the block takes from a driven port: the zero-filling `byte(a)` of R31 where it is used, else 0. -/
theorem drivenPort_byte {s : State} {used : Bool} {a : Nat} {idle : ReadPort} (hi : idle.re = false) :
    (drivenPort s used a idle).byte = if used then s.byteAt a else 0#8 := by
  cases h : readEnable s used a
  · have ha := readEnable_eq_false.1 h
    rw [drivenPort_of_disabled idle h]
    cases used with
    | true => simp [ReadPort.byte, hi, State.byteAt, Nat.not_lt.2 (ha rfl)]
    | false => simp [ReadPort.byte, hi]
  · obtain ⟨rfl, ha⟩ := readEnable_eq_true.1 h
    rw [drivenPort_of_enabled idle h]
    simp [ReadPort.byte, State.byteAt, ha]

/-- Port 0 of a request that reads quintet `q`: the primary byte. -/
def quintetPort0 (s : State) (q : Nat) : ReadPort := drivenPort s true (primaryIndex q) s.idlePort0

/-- Port 1 of a request that reads quintet `q`: the secondary byte, used when the window spans. -/
def quintetPort1 (s : State) (q : Nat) : ReadPort := drivenPort s (spans q) (secondaryIndex q) s.idlePort1

/-- Port 0 is enabled exactly when the primary byte is below LEN, and then addresses that byte and carries it (R19). -/
@[simp] theorem quintetPort0_re_eq_true {s : State} {q : Nat} :
    (quintetPort0 s q).re = true ↔ primaryIndex q < s.len.toNat := by
  rw [quintetPort0, drivenPort_re rfl, readEnable_eq_true]
  exact and_iff_right rfl

@[simp] theorem quintetPort0_re_eq_false {s : State} {q : Nat} :
    (quintetPort0 s q).re = false ↔ s.len.toNat ≤ primaryIndex q := by
  rw [← Bool.not_eq_true, quintetPort0_re_eq_true, Nat.not_lt]

theorem quintetPort0_of_enabled {s : State} {q : Nat} (h : (quintetPort0 s q).re = true) :
    quintetPort0 s q = { re := true, ra := BitVec.ofNat 16 (primaryIndex q), rd := s.buf.read (primaryIndex q) } :=
  drivenPort_of_enabled _ ((drivenPort_re rfl).symm.trans h)

@[simp] theorem quintetPort0_byte (s : State) (q : Nat) : (quintetPort0 s q).byte = s.byteAt (primaryIndex q) :=
  drivenPort_byte rfl

/-- Port 1 is enabled exactly when the window spans and the secondary byte is below LEN (R19). -/
@[simp] theorem quintetPort1_re_eq_true {s : State} {q : Nat} :
    (quintetPort1 s q).re = true ↔ spans q = true ∧ secondaryIndex q < s.len.toNat := by
  rw [quintetPort1, drivenPort_re rfl, readEnable_eq_true]

@[simp] theorem quintetPort1_re_eq_false {s : State} {q : Nat} :
    (quintetPort1 s q).re = false ↔ (spans q = true → s.len.toNat ≤ secondaryIndex q) := by
  rw [← Bool.not_eq_true, quintetPort1_re_eq_true, not_and, Nat.not_lt]

theorem quintetPort1_of_enabled {s : State} {q : Nat} (h : (quintetPort1 s q).re = true) :
    quintetPort1 s q = { re := true, ra := BitVec.ofNat 16 (secondaryIndex q), rd := s.buf.read (secondaryIndex q) } :=
  drivenPort_of_enabled _ ((drivenPort_re rfl).symm.trans h)

@[simp] theorem quintetPort1_byte (s : State) (q : Nat) :
    (quintetPort1 s q).byte = if spans q then s.byteAt (secondaryIndex q) else 0#8 :=
  drivenPort_byte rfl

theorem withQuintetPorts_eq {s : State} (h : s.len.toNat ≤ Config.nMax) (q : Nat) (k : ReadPort → ReadPort → Result) :
    withQuintetPorts s q k = k (quintetPort0 s q) (quintetPort1 s q) := by
  simp [withQuintetPorts, drivePort_eq h, quintetPort0, quintetPort1]

theorem execQuint_of_le {s : State} (h : s.len.toNat ≤ Config.nMax) (idx : BitVec 16) :
    execQuint idx s = .next (s.settle (quintetPort0 s idx.toNat) (quintetPort1 s idx.toNat)
      (if idx.toNat < qcnt s.len.toNat then
        resultRsp true false ((quintetValue idx.toNat (quintetPort0 s idx.toNat) (quintetPort1 s idx.toNat)).setWidth 24)
       else resultRsp false false 0#24)) := by
  rw [execQuint, checkLen_of_le h, withQuintetPorts_eq h]
  split <;> rfl

theorem execFmt_of_lt {s : State} (h : s.len.toNat ≤ Config.nMax) {idx : BitVec 16} (pad : Bool)
    (hk : idx.toNat < qcnt s.len.toNat) :
    execFmt idx pad s = .next (s.settle (quintetPort0 s idx.toNat) (quintetPort1 s idx.toNat)
      (resultRsp true false
        ((romRead (quintetValue idx.toNat (quintetPort0 s idx.toNat) (quintetPort1 s idx.toNat))).setWidth 24))) := by
  rw [execFmt, checkLen_of_le h, if_pos hk, withQuintetPorts_eq h]
  rfl

theorem execFmt_of_ge {s : State} (h : s.len.toNat ≤ Config.nMax) {idx : BitVec 16} (pad : Bool)
    (hk : qcnt s.len.toNat ≤ idx.toNat) :
    execFmt idx pad s = .next (s.settle s.idlePort0 s.idlePort1
      (if pad && decide (idx.toNat < plen s.len.toNat) then resultRsp true true (padCode.setWidth 24)
       else resultRsp false false 0#24)) := by
  rw [execFmt, checkLen_of_le h, if_neg (Nat.not_lt.2 hk)]
  split <;> rfl

theorem execOlen_of_le {s : State} (h : s.len.toNat ≤ Config.nMax) (pad : Bool) :
    execOlen pad s = .next (s.settle s.idlePort0 s.idlePort1
      (resultRsp true false (BitVec.ofNat 24 (outLen s.len.toNat pad)))) := by
  rw [execOlen, checkLen_of_le h]
  rfl

end Sys2Proof.Machine
end

