-- ==== Sys2Proof/Laws/Step.lean ====
section
/-! SUPPORT. What an instruction and a step can do: every one ends in `State.settle`, so each changes the ports and RSP only. -/

namespace Sys2Proof.Machine

/-- `s` settles to `r`: `r` is a next state that differs from `s` in the ports, RSP and the free-value counter only. -/
def SettlesTo (s : State) (r : Result) : Prop := ∃ p0 p1 w, r = .next (s.settle p0 p1 w)

theorem settlesTo_respondReading (s : State) (p0 p1 : ReadPort) (v padch : Bool) (data : BitVec 24) :
    SettlesTo s (respondReading s p0 p1 v padch data) := ⟨_, _, _, rfl⟩

theorem settlesTo_respond (s : State) (v padch : Bool) (data : BitVec 24) : SettlesTo s (respond s v padch data) :=
  ⟨_, _, _, rfl⟩

theorem settlesTo_raiseErr (s : State) (c : ErrCode) : SettlesTo s (raiseErr s c) := ⟨_, _, _, rfl⟩

theorem settlesTo_checkLen {s : State} {k : Result} (h : s.len.toNat ≤ Config.nMax → SettlesTo s k) :
    SettlesTo s (checkLen s k) := by
  rcases Nat.lt_or_ge Config.nMax s.len.toNat with hl | hl
  · rw [checkLen_of_gt hl]; exact settlesTo_raiseErr s _
  · rw [checkLen_of_le hl]; exact h hl

theorem exec_settles (i : Instr) (s : State) : SettlesTo s (exec i s) := by
  cases i with
  | quint idx =>
    refine settlesTo_checkLen fun h => ?_
    rw [withQuintetPorts_eq h]
    split <;> exact settlesTo_respondReading ..
  | bitpos idx => exact settlesTo_respond ..
  | comb lead trail => exact settlesTo_respond ..
  | extr cnt ofs src =>
    simp only [exec, execExtr]
    split
    · exact settlesTo_raiseErr ..
    · exact settlesTo_respond ..
  | alpha val => exact settlesTo_respond ..
  | fmt idx pad =>
    refine settlesTo_checkLen fun h => ?_
    split
    · rw [withQuintetPorts_eq h]
      exact settlesTo_respondReading ..
    · split <;> exact settlesTo_respond ..
  | olen pad => exact settlesTo_checkLen fun _ => settlesTo_respond ..
  | reservedOp111 rest => exact settlesTo_raiseErr ..

theorem step_of_decode {s : State} {i : Instr} (hs : s.inputsStable = true) (hd : decode s.req = .ok i) :
    step s = exec i s := by
  simp [step, hs, hd]

theorem step_of_reject {s : State} {r : Reject} (hs : s.inputsStable = true) (hd : decode s.req = .error r) :
    step s = raiseErr s .rsvdNonzero := by
  cases r; simp [step, hs, hd, answerReject]

theorem step_settles (s : State) : SettlesTo s (step s) := by
  by_cases hs : s.inputsStable = true
  · cases hd : decode s.req with
    | ok i => rw [step_of_decode hs hd]; exact exec_settles i s
    | error r => rw [step_of_reject hs hd]; exact settlesTo_raiseErr s _
  · simp only [step, hs]; exact ⟨_, _, _, rfl⟩

/-- A settled state has the environment's REQ, LEN and BUF (R26, R30). -/
theorem envKept_settle (s : State) (p0 p1 : ReadPort) (w : Word) : EnvKept s (s.settle p0 p1 w) :=
  ⟨rfl, rfl, rfl, rfl, fun _ => rfl⟩

end Sys2Proof.Machine
end

