-- ==== Sys2Proof/Laws/Encode.lean ====
section
/-! SUPPORT. The encode program, one lemma for each of its parts. -/

namespace Sys2Proof.Machine

/-- A request that answers without error is one exchange, and the state after it is the state that answered. -/
theorem ask_of_answer {s t : State} {i : Instr} (hs : s.inputsStable = true) (hd : decode (encode i) = .ok i)
    (h : exec i (s.present (encode i)) = .next t) (he : rspErr t.rsp = false) : ask s i = .ok t := by
  rw [ask, if_pos hs, step_of_decode (s := s.present (encode i)) hs hd, h]
  simp [he]

/-- A request that answers with an error stops the observation with its code. -/
theorem ask_of_error {s t : State} {i : Instr} (hs : s.inputsStable = true) (hd : decode (encode i) = .ok i)
    (h : exec i (s.present (encode i)) = .next t) (he : rspErr t.rsp = true) :
    ask s i = .error (.errResponse (rspEcode t.rsp)) := by
  rw [ask, if_pos hs, step_of_decode (s := s.present (encode i)) hs hd, h]
  simp [he]

theorem ask_of_unstable {s : State} (i : Instr) (hs : s.inputsStable = false) : ask s i = .error .inputsNotStable := by
  simp [ask, hs]

theorem collect_cons {pad : Bool} {count k : Nat} {s t u : State} {xs : List Exchange}
    (h : ask s (.fmt (BitVec.ofNat 16 k) pad) = .ok t) (hc : collect pad count (k + 1) t = .ok (xs, u)) :
    collect pad (count + 1) k s = .ok (⟨.fmt (BitVec.ofNat 16 k) pad, t.rsp⟩ :: xs, u) := by
  simp only [collect, h, hc]

theorem encodeRun_of_collect {pad : Bool} {s t u : State} {xs : List Exchange} (h : ask s (.olen pad) = .ok t)
    (hc : collect pad (rspData t.rsp).toNat 0 t = .ok (xs, u)) :
    encodeRun pad s = .ok (⟨.olen pad, t.rsp⟩ :: xs, u) := by
  simp only [encodeRun, h, hc]

theorem encodeRun_of_stop {pad : Bool} {s : State} {e : EncodeStop} (h : ask s (.olen pad) = .error e) :
    encodeRun pad s = .error e := by
  simp only [encodeRun, h]

theorem encodeObs_of_run {pad : Bool} {s t : State} {xs : List Exchange} (h : encodeRun pad s = .ok (xs, t)) :
    encodeObs pad s = .ok (xs.tail.map Exchange.character) := by
  simp only [encodeObs, h]

theorem encodeObs_of_stop {pad : Bool} {s : State} {e : EncodeStop} (h : encodeRun pad s = .error e) :
    encodeObs pad s = .error e := by
  simp only [encodeObs, h]

end Sys2Proof.Machine
end

