-- ==== Sys2Proof/Laws/Flags.lean ====
section
/-! SUPPORT. Reading a packed response word gives its fields back (R60). -/

namespace Sys2Proof.Machine

variable (err v padch : Bool) (ecode : BitVec 4) (data : BitVec 24)

@[simp] theorem rspErr_packRsp : rspErr (packRsp err v padch ecode data) = err := by
  simp [rspErr, packRsp, place]

@[simp] theorem rspV_packRsp : rspV (packRsp err v padch ecode data) = v := by
  simp [rspV, packRsp, place]

@[simp] theorem rspPadch_packRsp : rspPadch (packRsp err v padch ecode data) = padch := by
  simp [rspPadch, packRsp, place]

@[simp] theorem rspZero_packRsp : rspZero (packRsp err v padch ecode data) = false := by
  simp [rspZero, packRsp, place]

@[simp] theorem rspEcode_packRsp : rspEcode (packRsp err v padch ecode data) = ecode := by
  apply BitVec.eq_of_getLsbD_eq
  intro j hj
  interval_cases j <;> simp [rspEcode, packRsp, place]

@[simp] theorem rspData_packRsp : rspData (packRsp err v padch ecode data) = data := by
  apply BitVec.eq_of_getLsbD_eq
  intro j hj
  interval_cases j <;> simp [rspData, packRsp, place]

/-- A result response is no error, and carries its flags and data. -/
@[simp] theorem rspErr_resultRsp : rspErr (resultRsp v padch data) = false := rspErr_packRsp ..

@[simp] theorem rspV_resultRsp : rspV (resultRsp v padch data) = v := rspV_packRsp ..

@[simp] theorem rspPadch_resultRsp : rspPadch (resultRsp v padch data) = padch := rspPadch_packRsp ..

@[simp] theorem rspZero_resultRsp : rspZero (resultRsp v padch data) = false := rspZero_packRsp ..

@[simp] theorem rspEcode_resultRsp : rspEcode (resultRsp v padch data) = 0#4 := rspEcode_packRsp ..

@[simp] theorem rspData_resultRsp : rspData (resultRsp v padch data) = data := rspData_packRsp ..

@[simp] theorem rspErr_errRsp (c : ErrCode) : rspErr (errRsp c) = true := rspErr_packRsp ..

@[simp] theorem rspEcode_errRsp (c : ErrCode) : rspEcode (errRsp c) = c.ecode := rspEcode_packRsp ..

end Sys2Proof.Machine
end

