-- ==== Sys2Proof/Laws/Memory.lean ====
section
/-! SUPPORT. The laws of BUF: what a write does to every read, and that it keeps the canonical form. -/

namespace Sys2Proof.Machine

theorem Memory.lookup_erase_self (m : Memory) (a : Nat) : (Memory.erase m a).lookup a = none := by
  induction m with
  | nil => rfl
  | cons e m ih =>
    obtain ⟨k, b⟩ := e
    by_cases h : k = a <;> simp [Memory.erase, Memory.lookup, h, ih]

theorem Memory.lookup_erase_of_ne {a c : Nat} (m : Memory) (h : c ≠ a) :
    (Memory.erase m a).lookup c = Memory.lookup m c := by
  induction m with
  | nil => rfl
  | cons e m ih =>
    obtain ⟨k, b⟩ := e
    by_cases hk : k = a
    · subst hk; simp [Memory.erase, Memory.lookup, ih, Ne.symm h]
    · simp [Memory.erase, Memory.lookup, hk, ih]

theorem Memory.lookup_insert_self (m : Memory) (a : Nat) (v : Byte) : (Memory.insert m a v).lookup a = some v := by
  induction m with
  | nil => simp [Memory.insert, Memory.lookup]
  | cons e m ih =>
    obtain ⟨k, b⟩ := e
    rcases Nat.lt_trichotomy a k with h | h | h
    · simp [Memory.insert, Memory.lookup, h]
    · simp [Memory.insert, Memory.lookup, h]
    · simp [Memory.insert, Memory.lookup, Nat.not_lt.2 h.le, h.ne', h.ne, ih]

theorem Memory.lookup_insert_of_ne {a c : Nat} (m : Memory) (v : Byte) (h : c ≠ a) :
    (Memory.insert m a v).lookup c = Memory.lookup m c := by
  induction m with
  | nil => simp [Memory.insert, Memory.lookup, h.symm]
  | cons e m ih =>
    obtain ⟨k, b⟩ := e
    rcases Nat.lt_trichotomy a k with hk | hk | hk
    · simp [Memory.insert, Memory.lookup, hk, h.symm]
    · subst hk; simp [Memory.insert, Memory.lookup, h.symm]
    · simp [Memory.insert, Memory.lookup, Nat.not_lt.2 hk.le, hk.ne', ih]

/-- A read after a write to the same address gives the byte written. -/
theorem Memory.read_write_self (m : Memory) (a : Nat) (v : Byte) : (Memory.write m a v).read a = v := by
  by_cases h : v = Config.powerUpByte a
  · simp [Memory.write, h, Memory.read, Memory.lookup_erase_self]
  · simp [Memory.write, h, Memory.read, Memory.lookup_insert_self]

/-- A write leaves every other address alone. -/
theorem Memory.read_write_of_ne {a c : Nat} (m : Memory) (v : Byte) (h : c ≠ a) :
    (Memory.write m a v).read c = Memory.read m c := by
  by_cases hv : v = Config.powerUpByte a
  · simp [Memory.write, hv, Memory.read, Memory.lookup_erase_of_ne m h]
  · simp [Memory.write, hv, Memory.read, Memory.lookup_insert_of_ne m v h]

theorem Memory.wfFrom_mono {lo lo' : Nat} {m : Memory} (h : lo' ≤ lo) (hm : m.wfFrom lo = true) :
    m.wfFrom lo' = true := by
  cases m with
  | nil => rfl
  | cons e m =>
    obtain ⟨k, b⟩ := e
    simp only [Memory.wfFrom, Bool.and_eq_true, decide_eq_true_eq] at hm ⊢
    exact ⟨⟨⟨h.trans hm.1.1.1, hm.1.1.2⟩, hm.1.2⟩, hm.2⟩

theorem Memory.wfFrom_erase {lo : Nat} {m : Memory} (a : Nat) (hm : m.wfFrom lo = true) :
    (Memory.erase m a).wfFrom lo = true := by
  induction m generalizing lo with
  | nil => rfl
  | cons e m ih =>
    obtain ⟨k, b⟩ := e
    simp only [Memory.wfFrom, Bool.and_eq_true, decide_eq_true_eq] at hm
    have ht := ih hm.2
    by_cases h : k = a
    · simpa [Memory.erase, h] using Memory.wfFrom_mono (hm.1.1.1.trans (Nat.le_succ k)) ht
    · simp [Memory.erase, h, Memory.wfFrom, hm.1.1.1, hm.1.1.2, hm.1.2, ht]

theorem Memory.wfFrom_insert {lo a : Nat} {m : Memory} {v : Byte} (ha : lo ≤ a) (hmap : a < Config.nMax)
    (hv : v ≠ Config.powerUpByte a) (hm : m.wfFrom lo = true) : (Memory.insert m a v).wfFrom lo = true := by
  induction m generalizing lo with
  | nil => simp [Memory.insert, Memory.wfFrom, ha, hmap, hv]
  | cons e m ih =>
    obtain ⟨k, b⟩ := e
    simp only [Memory.wfFrom, Bool.and_eq_true, decide_eq_true_eq] at hm
    rcases Nat.lt_trichotomy a k with h | h | h
    · simp [Memory.insert, Memory.wfFrom, h, ha, hmap, hv, hm.1.1.2, hm.1.2, hm.2, Nat.succ_le_of_lt h]
    · subst h; simp [Memory.insert, Memory.wfFrom, ha, hmap, hv, hm.2]
    · simp [Memory.insert, Memory.wfFrom, Nat.not_lt.2 h.le, h.ne', hm.1.1.1, hm.1.1.2, hm.1.2,
        ih (Nat.succ_le_of_lt h) hm.2]

/-- A write to a mapped address keeps the canonical form. -/
theorem Memory.wf_write {m : Memory} {a : Nat} (v : Byte) (ha : a < Config.nMax) (hm : m.wf = true) :
    (Memory.write m a v).wf = true := by
  by_cases hv : v = Config.powerUpByte a
  · simpa [Memory.write, hv, Memory.wf] using Memory.wfFrom_erase a hm
  · simpa [Memory.write, hv, Memory.wf] using Memory.wfFrom_insert (Nat.zero_le a) ha hv hm

/-- The environment's set-up writes keep the canonical form. -/
theorem writeBytes_wf {bs : List Byte} {a : Nat} {s t : State} (h : writeBytes bs a s = .next t)
    (hm : s.buf.wf = true) : t.buf.wf = true := by
  induction bs generalizing a s with
  | nil => cases h; exact hm
  | cons b bs ih =>
    by_cases ha : a < Config.nMax
    · simp only [writeBytes, State.writeBuf, ha, if_true] at h
      exact ih h (Memory.wf_write b ha hm)
    · simp [writeBytes, State.writeBuf, ha] at h

theorem reset_buf_wf : State.reset.buf.wf = true := rfl

end Sys2Proof.Machine
end

