-- ==== Sys2Proof/Laws/Operands.lean ====
section
/-! SUPPORT. The index arithmetic and the datapath as plain numbers (R11, R65, R71, R72, R78): one lemma per function, so that
proofs need not unfold them. -/

namespace Sys2Proof.Machine

theorem primaryIndex_eq (q : Nat) : primaryIndex q = 5 * q / 8 := rfl

theorem secondaryIndex_eq (q : Nat) : secondaryIndex q = 5 * q / 8 + 1 := rfl

theorem windowStart_eq (q : Nat) : windowStart q = 5 * q % 8 := rfl

theorem off16_eq (q : Nat) : off16 q = 11 - 5 * q % 8 := rfl

theorem spans_eq_true {q : Nat} : spans q = true ↔ 3 < 5 * q % 8 := by
  rw [spans, decide_eq_true_eq, windowStart_eq]

theorem spans_eq_false {q : Nat} : spans q = false ↔ 5 * q % 8 ≤ 3 := by
  rw [spans, decide_eq_false_iff_not, windowStart_eq, Nat.not_lt]

theorem qcnt_eq (n : Nat) : qcnt n = (8 * n + 4) / 5 := by
  simp only [qcnt, ceilDiv]
  omega

theorem plen_eq (n : Nat) : plen n = 8 * ((n + 4) / 5) := by
  simp only [plen, qcnt_eq, ceilDiv]
  omega

theorem outLen_false (n : Nat) : outLen n false = qcnt n := rfl

theorem outLen_true (n : Nat) : outLen n true = plen n := rfl

/-- A field or-ed below another is added to it. -/
theorem shiftLeft_or_eq_add {a b k : Nat} (h : b < 2 ^ k) : (a <<< k) ||| b = a * 2 ^ k + b := by
  rw [Nat.shiftLeft_eq, Nat.mul_comm, Nat.two_pow_add_eq_or_of_lt h]

theorem combineBytes_toNat (lead trail : Byte) :
    (combineBytes lead trail).toNat = lead.toNat * 256 + trail.toNat := by
  have disjoint : place 16 lead 8 &&& place 16 trail 0 = 0 := by
    apply BitVec.eq_of_getLsbD_eq
    intro j hj
    interval_cases j <;> simp [place]
  rw [combineBytes, ← BitVec.add_eq_or_of_and_eq_zero _ _ disjoint]
  have := lead.isLt
  have := trail.isLt
  simp only [place, BitVec.toNat_add, BitVec.toNat_shiftLeft, BitVec.toNat_setWidth, Nat.shiftLeft_eq]
  omega

theorem extractBits_toNat {cnt : Nat} (ofs : Nat) (src : BitVec 16) (h : cnt ≤ 16) :
    (extractBits cnt ofs src).toNat = (src.toNat >>> ofs) &&& (2 ^ cnt - 1) := by
  have : 2 ^ cnt ≤ 2 ^ 16 := Nat.pow_le_pow_right (by omega) h
  have := Nat.one_le_two_pow (n := cnt)
  simp only [extractBits, maskBits, BitVec.toNat_and, BitVec.toNat_ushiftRight, BitVec.toNat_ofNat]
  rw [Nat.mod_eq_of_lt (by omega)]

/-- A result response as a number: its flags above its data (R61). -/
theorem resultRsp_toNat (v padch : Bool) (data : BitVec 24) :
    (resultRsp v padch data).toNat = v.toNat * 2 ^ 30 + padch.toNat * 2 ^ 29 + data.toNat := by
  have split_data : resultRsp v padch data = resultRsp v padch 0 ||| place 32 data 0 := by
    cases v <;> cases padch <;> simp [resultRsp, packRsp, place]
  have disjoint : resultRsp v padch 0 &&& place 32 data 0 = 0 := by
    apply BitVec.eq_of_getLsbD_eq
    intro j hj
    interval_cases j <;> simp [resultRsp, packRsp, place]
  rw [split_data, ← BitVec.add_eq_or_of_and_eq_zero _ _ disjoint]
  have := data.isLt
  cases v <;> cases padch <;> simp [resultRsp, packRsp, place] <;> omega

end Sys2Proof.Machine
end

