-- ==== Sys2Proof/Laws/PerInstr.lean ====
section
/-! SUPPORT. Statements for all instructions, made one constructor at a time: the word of each instruction lies in its row
of spec/opcode_table.json (R59), and its operands pass the assembler's check (R63). -/

namespace Sys2Proof.Laws.EncodeInRow

/-- The instruction's word matches its opcode-table row, and its assembly line is well formed. -/
def Statement (i : Instr) : Prop := encode i &&& i.row.mask = i.row.pattern ∧ i.wf = true

theorem quint (idx : BitVec 16) : Statement (.quint idx) := by
  refine ⟨?_, ?_⟩
  · apply BitVec.eq_of_getLsbD_eq
    intro j hj
    interval_cases j <;> simp [encode, place, Instr.row]
  · simp only [Instr.wf, Instr.asm, AsmLine.wf, decide_eq_true_eq]
    omega

theorem bitpos (idx : BitVec 16) : Statement (.bitpos idx) := by
  refine ⟨?_, ?_⟩
  · apply BitVec.eq_of_getLsbD_eq
    intro j hj
    interval_cases j <;> simp [encode, place, Instr.row]
  · simp only [Instr.wf, Instr.asm, AsmLine.wf, decide_eq_true_eq]
    omega

theorem comb (lead trail : Byte) : Statement (.comb lead trail) := by
  refine ⟨?_, ?_⟩
  · apply BitVec.eq_of_getLsbD_eq
    intro j hj
    interval_cases j <;> simp [encode, place, Instr.row]
  · simp only [Instr.wf, Instr.asm, AsmLine.wf, Bool.and_eq_true, decide_eq_true_eq]
    omega

theorem extr (cnt ofs : BitVec 5) (src : BitVec 16) : Statement (.extr cnt ofs src) := by
  refine ⟨?_, ?_⟩
  · apply BitVec.eq_of_getLsbD_eq
    intro j hj
    interval_cases j <;> simp [encode, place, Instr.row]
  · simp only [Instr.wf, Instr.asm, AsmLine.wf, Bool.and_eq_true, decide_eq_true_eq]
    omega

theorem alpha (val : BitVec 5) : Statement (.alpha val) := by
  refine ⟨?_, ?_⟩
  · apply BitVec.eq_of_getLsbD_eq
    intro j hj
    interval_cases j <;> simp [encode, place, Instr.row]
  · simp only [Instr.wf, Instr.asm, AsmLine.wf, decide_eq_true_eq]
    omega

theorem fmt (idx : BitVec 16) (pad : Bool) : Statement (.fmt idx pad) := by
  refine ⟨?_, ?_⟩
  · apply BitVec.eq_of_getLsbD_eq
    intro j hj
    interval_cases j <;> simp [encode, place, Instr.row]
  · simp only [Instr.wf, Instr.asm, AsmLine.wf, Bool.and_eq_true, decide_eq_true_eq]
    refine ⟨by omega, by cases pad <;> decide⟩

theorem olen (pad : Bool) : Statement (.olen pad) := by
  refine ⟨?_, ?_⟩
  · apply BitVec.eq_of_getLsbD_eq
    intro j hj
    interval_cases j <;> simp [encode, place, Instr.row]
  · simp only [Instr.wf, Instr.asm, AsmLine.wf, decide_eq_true_eq]
    cases pad <;> decide

theorem reservedOp111 (rest : BitVec 29) : Statement (.reservedOp111 rest) := by
  refine ⟨?_, ?_⟩
  · apply BitVec.eq_of_getLsbD_eq
    intro j hj
    interval_cases j <;> simp [encode, place, Instr.row]
  · simp only [Instr.wf, Instr.asm, AsmLine.wf, decide_eq_true_eq]
    omega

end Sys2Proof.Laws.EncodeInRow
end

