-- ==== Sys2Proof/Tests/Slice0.lean ====
section
/-! SUPPORT. The model's own tests. Expected words come from spec/95_test_vectors.md and from the format tables of
spec/30_encoding.md; each test runs one step. The witnesses show that the hypotheses of each statement can be met, at the
boundary of each clause. -/

namespace Sys2Proof.Tests
open Sys2Proof Sys2Proof.Machine

/-- A block with a request, a length and an input on it. -/
def block (req : Word) (len : BitVec 16) (buf : Memory) : State :=
  { State.reset with req := req, len := len, buf := buf }

/-- The response of a step. -/
def answer (s : State) : Option Word :=
  match step s with
  | .next t => some t.rsp
  | .fault _ => none
  | .refused _ => none

/-- The read enables of a step. -/
def enables (s : State) : Option (Bool × Bool) :=
  match step s with
  | .next t => some (t.port0.re, t.port1.re)
  | .fault _ => none
  | .refused _ => none

/-- The source's input `[0x74, 0xF7]`. -/
def twoBytes : Memory := [(0, 0x74#8), (1, 0xF7#8)]

/-! ## WellFormed: for each operand check a line that it refuses, just past the range, and one that it passes, at the range's end (R63) -/

theorem test_wf_quint_refused : AsmLine.wf (.quint 65536) = false := by decide
theorem test_wf_quint_last_passes : AsmLine.wf (.quint 65535) = true := by decide
theorem test_wf_bitpos_refused : AsmLine.wf (.bitpos 65536) = false := by decide
theorem test_wf_bitpos_last_passes : AsmLine.wf (.bitpos 65535) = true := by decide
theorem test_wf_comb_lead_refused : AsmLine.wf (.comb 256 0) = false := by decide
theorem test_wf_comb_trail_refused : AsmLine.wf (.comb 0 256) = false := by decide
theorem test_wf_comb_last_passes : AsmLine.wf (.comb 255 255) = true := by decide
theorem test_wf_extr_cnt_refused : AsmLine.wf (.extr 32 0 0) = false := by decide
theorem test_wf_extr_ofs_refused : AsmLine.wf (.extr 0 32 0) = false := by decide
theorem test_wf_extr_src_refused : AsmLine.wf (.extr 0 0 65536) = false := by decide
theorem test_wf_extr_last_passes : AsmLine.wf (.extr 31 31 65535) = true := by decide
theorem test_wf_alpha_refused : AsmLine.wf (.alpha 32) = false := by decide
theorem test_wf_alpha_last_passes : AsmLine.wf (.alpha 31) = true := by decide
theorem test_wf_fmt_idx_refused : AsmLine.wf (.fmt 65536 0) = false := by decide
theorem test_wf_fmt_pad_refused : AsmLine.wf (.fmt 0 2) = false := by decide
theorem test_wf_fmt_last_passes : AsmLine.wf (.fmt 65535 1) = true := by decide
theorem test_wf_olen_refused : AsmLine.wf (.olen 2) = false := by decide
theorem test_wf_olen_last_passes : AsmLine.wf (.olen 1) = true := by decide
theorem test_wf_word_refused : AsmLine.wf (.word 4294967296) = false := by decide
theorem test_wf_word_last_passes : AsmLine.wf (.word 4294967295) = true := by decide

theorem test_assemble_refuses : assemble (.fmt 0 2) = none := by decide

/-! ## The text of a line (R63, and the examples of R70, R72, R81) -/

theorem test_text_extr : assembleText "EXTR 5, 11, 0x74F7".toList = some 0x650B74F7#32 := by decide
theorem test_text_binaryAndBlanks : assembleText "  FMT\t0b10 ,1 ".toList = some 0xA0010002#32 := by decide
theorem test_text_word : assembleText ".word 0xFFFFFFFF".toList = some 0xFFFFFFFF#32 := by decide
theorem test_text_refuses_range : assembleText "QUINT 65536".toList = none := by decide
theorem test_text_refuses_missingOperand : assembleText "COMB 1".toList = none := by decide
theorem test_text_refuses_badDigit : assembleText "ALPHA 0b12".toList = none := by decide

/-! ## Decode: a word written out bit by bit from each format table (R48 to R53), and refused words (R57, spec/95 §2.8) -/

theorem test_decode_quint : decode 0b000_0000000000000_0000000000000011#32 = .ok (.quint 3) := by decide
theorem test_decode_bitpos : decode 0b001_0000000000000_1111111111111111#32 = .ok (.bitpos 65535) := by decide
theorem test_decode_comb : decode 0b010_0000000000000_01110100_11110111#32 = .ok (.comb 0x74 0xF7) := by decide
theorem test_decode_extr : decode 0b011_00101_000_01011_0111010011110111#32 = .ok (.extr 5 11 0x74F7) := by decide
theorem test_decode_alpha : decode 0b100_000000000000000000000000_11011#32 = .ok (.alpha 27) := by decide
theorem test_decode_fmt : decode 0b101_000000000000_1_0000000000000010#32 = .ok (.fmt 2 true) := by decide
theorem test_decode_olen : decode 0b110_000000000000_1_0000000000000000#32 = .ok (.olen true) := by decide
theorem test_decode_reserved : decode 0b111_00000000000000000000000000101#32 = .ok (.reservedOp111 5) := by decide
theorem test_decode_refuses_quint_bit16 : decode 0x00010000#32 = .error .rsvdNonzero := by decide
theorem test_decode_refuses_extr_bit21 : decode 0x65340000#32 = .error .rsvdNonzero := by decide
theorem test_decode_refuses_alpha_bit5 : decode 0x80000020#32 = .error .rsvdNonzero := by decide
theorem test_decode_refuses_fmt_bit17 : decode 0xA0020000#32 = .error .rsvdNonzero := by decide
theorem test_decode_refuses_olen_bit0 : decode 0xC0000001#32 = .error .rsvdNonzero := by decide
theorem test_decode_refuses_bitpos_bit28 : decode 0x30000000#32 = .error .rsvdNonzero := by decide
theorem test_decode_refuses_comb_bit16 : decode 0x40010000#32 = .error .rsvdNonzero := by decide

theorem test_tableWord : decodeTableWord 32 0x650B74F7 = some (.extr 5 11 0x74F7) := by decide

/-! ## One step of each request (spec/95 §2) -/

theorem test_quint_fill : answer (block 0x00000003#32 2#16 twoBytes) = some 0x40000010#32 := by decide
theorem test_quint_pastEnd : answer (block 0x00000004#32 2#16 twoBytes) = some 0x00000000#32 := by decide
theorem test_quint_secondByteHidden : enables (block 0x00000003#32 2#16 twoBytes) = some (true, false) := by decide
theorem test_bitpos_four : answer (block 0x20000004#32 0#16 []) = some 0x40790002#32 := by decide
theorem test_bitpos_last : answer (block 0x2000FFFF#32 40961#16 []) = some 0x40869FFF#32 := by decide
theorem test_comb : answer (block 0x4000FF00#32 40961#16 []) = some 0x4000FF00#32 := by decide
theorem test_extr_top : answer (block 0x6F01FFFF#32 0#16 []) = some 0x40007FFF#32 := by decide
theorem test_extr_range : answer (block 0x6110FFFF#32 0#16 []) = some 0x84000000#32 := by decide
theorem test_alpha_firstDigit : answer (block 0x8000001A#32 65535#16 []) = some 0x40000032#32 := by decide
theorem test_alpha_Z : answer (block 0x80000019#32 0#16 []) = some 0x4000005A#32 := by decide
theorem test_fmt_char : answer (block 0xA0010001#32 1#16 [(0, 0x5A#8)]) = some 0x40000049#32 := by decide
theorem test_fmt_pad : answer (block 0xA0010007#32 1#16 [(0, 0x5A#8)]) = some 0x6000003D#32 := by decide
theorem test_olen_capacity : answer (block 0xC0000000#32 40960#16 []) = some 0x40010000#32 := by decide
theorem test_olen_overCapacity : answer (block 0xC0010000#32 40961#16 []) = some 0x83000000#32 := by decide
theorem test_reserved_beatsLen : answer (block 0x00010000#32 40961#16 []) = some 0x82000000#32 := by decide
theorem test_op111_beatsAll : answer (block 0xFFFFFFFF#32 40961#16 []) = some 0x81000000#32 := by decide

/-- The environment presents a word of the table and the next step runs it. -/
theorem test_withFetchWord : answer (State.reset.withFetchWord 32 0x8000001F) = some 0x40000037#32 := by decide

/-- An unmapped BUF address does not exist, for a read or for the environment's write (R28). -/
theorem test_unmapped : memRead State.reset 0xA000 = .error (.bufUnmapped 0xA000) := by decide

/-- Past LEN the byte is zero, whatever BUF holds there (R31). -/
theorem test_byteAt_pastLen : (block 0 1#16 [(0, 0xFF#8), (1, 0xFF#8)]).byteAt 1 = 0#8 := by decide

/-! ## Witnesses: states and operands that meet the hypotheses of the statements -/

/-- Every request decodes on some stable block. -/
theorem witness_stepRunsDecodedRequest :
    (block 0x650B74F7#32 0#16 []).inputsStable = true ∧
      decode (block 0x650B74F7#32 0#16 []).req = .ok (.extr 5 11 0x74F7) := by decide

theorem witness_decodeEncodeAgree : (Instr.fmt 65535 true).wf = true ∧ decode 0xA001FFFF#32 = .ok (.fmt 65535 true) := by decide

theorem witness_rowMatches : Instr.row (.olen true) ∈ opcodeRows ∧
    0xC0010000#32 &&& (Instr.row (.olen true)).mask = (Instr.row (.olen true)).pattern := by decide

/-- A word that no legal row matches: with OP 111, and with a reserved bit. -/
theorem witness_noLegalRow : ∀ w ∈ [0xE0000000#32, 0x00010000#32], (block w 0#16 []).inputsStable = true ∧
    ∀ r ∈ opcodeRows, r.mnemonic ≠ "reserved_OP_111" → w &&& r.mask ≠ r.pattern := by
  intro w hw
  fin_cases hw <;> refine ⟨rfl, fun r hr => ?_⟩ <;> fin_cases hr <;> decide

theorem witness_operandsAreRequestFields : decode 0x7F1FFFFF#32 = .ok (.extr 31 31 0xFFFF) := by decide

theorem witness_assembler_refused : (AsmLine.olen 2).wf = false := by decide

theorem witness_assembler_accepted : (AsmLine.extr 31 31 65535).wf = true ∧ ∀ n, AsmLine.extr 31 31 65535 ≠ .word n := by
  refine ⟨by decide, fun n h => ?_⟩
  cases h

/-- A written line with an operand in each of the three bases. -/
theorem witness_assembler_text : "EXTR".toList ≠ [] ∧ (∀ c ∈ "EXTR".toList, isBlank c = false) ∧
    List.Forall₂ (fun text n => readNumber text = some n) ["5".toList, "0b1011".toList, "0x74F7".toList] [5, 11, 0x74F7] := by
  refine ⟨by simp, by simp [isBlank], ?_⟩
  exact .cons (by decide) (.cons (by decide) (.cons (by decide) .nil))

/-- The largest digit of each base. -/
theorem witness_assembler_digits : ([9] : List Nat) ≠ [] ∧ (∀ d ∈ [9, 0], d < 10) ∧ (∀ d ∈ [15, 0], d < 16) ∧
    (∀ d ∈ [1, 0], d < 2) := by decide

/-- Hexadecimal digits in both cases, in one number. -/
theorem witness_assembler_hexCases :
    List.Forall₂ (fun c d => c = Nat.digitChar d ∨ c = (Nat.digitChar d).toUpper) ['F', 'a'] [15, 10] ∧
      readNumber ['0', 'x', 'F', 'a'] = some 250 :=
  ⟨.cons (by decide) (.cons (by decide) .nil), by decide⟩

/-- Both ports enabled: QUINT 1 of two bytes (spec/95 §1.3). -/
theorem witness_bothPortsEnabled : enables (block 0x00000001#32 2#16 twoBytes) = some (true, true) := by decide

theorem witness_stable : (block 0xA0010002#32 1#16 [(0, 0x5A#8)]).inputsStable = true := rfl

/-- PADCH = 1 occurs: the premise of the last clause of EveryResponseHasItsShape. -/
theorem witness_padResponse : ∃ t, step (block 0xA0010002#32 1#16 [(0, 0x5A#8)]) = .next t ∧ rspPadch t.rsp = true :=
  ⟨_, rfl, by decide⟩

theorem witness_op111 : (block 0xFFFFFFFF#32 40961#16 []).req.toNat / 2 ^ 29 = 7 := by decide

/-- The lowest and the highest reserved bit of each format. -/
theorem witness_reservedBits : ∀ w ∈ [0x00010000#32, 0x10000000#32, 0x20010000#32, 0x50000000#32, 0x60200000#32,
      0x60800000#32, 0x80000020#32, 0x90000000#32, 0xA0020000#32, 0xB0000000#32, 0xC0000001#32, 0xD0000000#32],
    w.toNat / 2 ^ 29 ≠ 7 ∧ w &&& reservedBits (w.toNat / 2 ^ 29) ≠ 0 := by
  intro w hw
  fin_cases hw <;> decide

/-- The first length over `N_MAX` and the last one within it. -/
theorem witness_lenRange : 40960 < (block 0 40961#16 []).len.toNat ∧ (block 0 40960#16 []).len.toNat ≤ 40960 := by decide

theorem witness_noLenCheck : (∃ idx, Instr.bitpos 0 = .bitpos idx) ∧ (∃ l t, Instr.comb 0 0 = .comb l t) ∧
    (∃ c o f, Instr.extr 0 0 0 = .extr c o f) ∧ (∃ v, Instr.alpha 0 = .alpha v) :=
  ⟨⟨0, rfl⟩, ⟨0, 0, rfl⟩, ⟨0, 0, 0, rfl⟩, ⟨0, rfl⟩⟩

/-- EXTR's range, just past and just within, at both ends of OFS. -/
theorem witness_extrRange : 16 < (16#5).toNat + (1#5).toNat ∧ 16 < (0#5).toNat + (17#5).toNat ∧
    (16#5).toNat + (0#5).toNat ≤ 16 ∧ (0#5).toNat + (16#5).toNat ≤ 16 := by decide

/-- Each check of R98 fails first somewhere, and no check fails somewhere. -/
theorem witness_firstFailingCheck :
    answer (block 0xE0000000#32 0#16 []) = some 0x81000000#32 ∧ answer (block 0x65340000#32 0#16 []) = some 0x82000000#32 ∧
    answer (block 0xA0010000#32 40961#16 []) = some 0x83000000#32 ∧ answer (block 0x71000000#32 40961#16 []) = some 0x84000000#32 ∧
    answer (block 0x20000000#32 40961#16 []) = some 0x40B00000#32 := by decide

/-- QUINT and FMT at the first position past the end, and at the last one within. -/
theorem witness_pastEnd : qcnt (block 0 1#16 []).len.toNat ≤ (2#16).toNat ∧ outLen (block 0 1#16 []).len.toNat true ≤ (8#16).toNat ∧
    outLen (block 0 1#16 []).len.toNat false ≤ (2#16).toNat ∧ (1#16).toNat < qcnt (block 0 1#16 []).len.toNat := by decide

/-- A stable step with an error response, for each of the four codes. -/
theorem witness_errorResponse : ∀ s ∈ [block 0xE0000000#32 0#16 [], block 0x00010003#32 2#16 twoBytes,
      block 0x00000003#32 40961#16 twoBytes, block 0x7100FFFF#32 2#16 twoBytes],
    s.inputsStable = true ∧ ∃ t, step s = .next t ∧ rspErr t.rsp = true := by
  intro s hs
  fin_cases hs <;> exact ⟨rfl, _, rfl, by decide⟩

theorem witness_lastIndex : (65535 : Nat) ≤ 65535 ∧ (65527#16).toNat + 8 ≤ 65535 ∧ (40960 : Nat) ≤ 40960 := by decide

/-- The last quintet of the largest input, and the final quintet of a one-byte input with its fill. -/
theorem witness_quintetWithin : (block 0 40960#16 []).len.toNat ≤ 40960 ∧ (65535#16).toNat < qcnt (block 0 40960#16 []).len.toNat ∧
    (65535#16).toNat < (8 * (block 0 40960#16 []).len.toNat + 4) / 5 ∧
    (1#16).toNat + 1 = qcnt (block 0 1#16 []).len.toNat ∧ 8 * (block 0 1#16 []).len.toNat % 5 ≠ 0 := by decide

/-- A window that does not span and one that does; a spanning one whose secondary byte is missing. -/
theorem witness_windows : 5 * (7#16).toNat % 8 ≤ 3 ∧ 3 < 5 * (4#16).toNat % 8 ∧ spans (3#16).toNat = true ∧
    enables (block 0x00000003#32 2#16 twoBytes) = some (true, false) := by decide

/-- The three cases of FMT, each at its edges: last character, first and last pad, first position past either end. -/
theorem witness_fmtCases : (1#16).toNat < (8 * 1 + 4) / 5 ∧ (8 * 1 + 4) / 5 ≤ (2#16).toNat ∧ (7#16).toNat < 8 * ((1 + 4) / 5) ∧
    8 * ((1 + 4) / 5) ≤ (8#16).toNat ∧ (block 0 1#16 []).len.toNat = 1 := by decide

theorem witness_encode : (block 0 5#16 []).inputsStable = true ∧ (block 0 5#16 []).len.toNat ≤ 40960 ∧
    (block 0 0#16 []).len = 0#16 := by decide

theorem witness_encode_unstable : ((block 0 5#16 []).holdInputs false).inputsStable = false := rfl

theorem witness_setUp : ([0x5A#8] : List Byte).length ≤ 40960 ∧ (List.replicate 40960 0xFF#8).length ≤ 40960 := by
  refine ⟨by decide, ?_⟩
  rw [List.length_replicate]

/-- A pad character occurs in an encode: position 2 of the padded encode of one byte. -/
theorem witness_padOccurs (s : State) (h : s.input = [0x5A#8]) : (base32 s.input true)[2]? = some 0x3D#8 := by
  rw [h]
  decide

/-- Two stable states with the same REQ, LEN and BUF below LEN that differ elsewhere: a leftover response, a byte past LEN. -/
theorem witness_sameInputs :
    let s := block 0x00000003#32 2#16 [(0, 0x74#8), (1, 0xF7#8), (2, 0x01#8)]
    let s' := { block 0x00000003#32 2#16 twoBytes with rsp := 0x84000000#32, freeCount := 7 }
    s ≠ s' ∧ s.inputsStable = true ∧ s'.inputsStable = true ∧ s.req = s'.req ∧ s.len = s'.len ∧
      ∀ a, a < s.len.toNat → s.buf.read a = s'.buf.read a := by
  refine ⟨by decide, rfl, rfl, rfl, rfl, ?_⟩
  intro a ha
  have h2 : a < 2 := ha
  interval_cases a <;> decide

/-- Two stable states with the same inputs at every address and different histories. -/
theorem witness_sameInputsEverywhere :
    let s := block 0x00000003#32 2#16 twoBytes
    let s' := { s with rsp := 0x84000000#32, freeCount := 7 }
    s ≠ s' ∧ s.inputsStable = true ∧ s'.inputsStable = true ∧ s.req = s'.req ∧ s.len = s'.len ∧
      ∀ a, s.buf.read a = s'.buf.read a := by
  exact ⟨by decide, rfl, rfl, rfl, rfl, fun _ => rfl⟩

/-- Requests that drive no port: one that is no QUINT or FMT, and FMT at the first pad. -/
theorem witness_noReadRequests : (∀ idx, decode 0x20000004#32 ≠ .ok (.quint idx)) ∧
    (∀ idx pad, decode 0x20000004#32 = .ok (.fmt idx pad) → qcnt 2 ≤ idx.toNat) ∧
    decode 0xA0010004#32 = .ok (.fmt 4 true) ∧ qcnt 2 ≤ (4#16).toNat := by
  have h : decode 0x20000004#32 = .ok (.bitpos 4) := by decide
  refine ⟨fun idx => ?_, fun idx pad => ?_, by decide, by decide⟩ <;> rw [h] <;> intro h' <;> cases h'

/-- The invariant holds of a state, and a step leads on from it. -/
theorem witness_invariant : Inv State.reset ∧ ∃ t, step State.reset = .next t := by
  refine ⟨⟨rfl, fun _ => ⟨?_, ?_, ?_⟩⟩, _, rfl⟩
  · unfold RspShape
    decide
  · intro h
    cases h
  · intro h
    cases h

theorem witness_unstable : (State.reset.holdInputs false).inputsStable = false := rfl

/-- The last mapped address, the first unmapped one, and a canonical memory with a byte written into it. -/
theorem witness_writes : (0x9FFF : Nat) < 0xA000 ∧ 0xA000 ≤ (0xA000 : Nat) ∧ State.reset.buf.wf = true ∧
    (Memory.write [] 0x9FFF 0x5A#8).wf = true :=
  ⟨by decide, by decide, rfl, Memory.wf_write _ (by decide) rfl⟩

/-- Two canonical memories that read the same everywhere, reached by different writes. -/
theorem witness_equalContents : (Memory.write (Memory.write [] 0 0x01#8) 0 0x02#8).wf = true ∧ (Memory.write [] 0 0x02#8).wf = true ∧
    ∀ a, (Memory.write (Memory.write [] 0 0x01#8) 0 0x02#8).read a = (Memory.write [] 0 0x02#8).read a := by
  refine ⟨Memory.wf_write _ (by decide) (Memory.wf_write _ (by decide) rfl), Memory.wf_write _ (by decide) rfl, fun a => ?_⟩
  rcases Nat.eq_zero_or_pos a with rfl | h
  · rw [Memory.read_write_self, Memory.read_write_self]
  · rw [Memory.read_write_of_ne _ _ (Nat.ne_of_gt h), Memory.read_write_of_ne _ _ (Nat.ne_of_gt h),
      Memory.read_write_of_ne _ _ (Nat.ne_of_gt h)]

end Sys2Proof.Tests
end

section
/-! The outputs as a function of the inputs (R16): a relation between the answers to two evaluations, one rule for each
shared operation, then one for `exec` and one for `step`. The rules ask for equal bytes only in the window that is read. -/

namespace Sys2Proof.Machine

/-- Two ports look alike: the same enable, and on an enabled port the same address and data (R19, U6). -/
def SamePort (p p' : ReadPort) : Prop := p.re = p'.re ∧ (p.re = true → p.ra = p'.ra ∧ p.rd = p'.rd)

/-- Two evaluations both answer, and look alike at the block's outputs. -/
def SameAnswer (r r' : Result) : Prop := ∃ t t', r = .next t ∧ r' = .next t' ∧ SameOutputs t t'

/-- The two bytes that quintet `q` can come from are the same in both states, as far as they are below LEN. -/
def SameWindow (s s' : State) (q : Nat) : Prop :=
  ∀ a, a < s.len.toNat → a = primaryIndex q ∨ a = secondaryIndex q → s.buf.read a = s'.buf.read a

theorem samePort_idlePort0 (s s' : State) : SamePort s.idlePort0 s'.idlePort0 := ⟨rfl, nofun⟩

theorem samePort_idlePort1 (s s' : State) : SamePort s.idlePort1 s'.idlePort1 := ⟨rfl, nofun⟩

/-- RD reaches a response only from an enabled port (R19, R31). -/
theorem SamePort.byte_eq {p p' : ReadPort} (h : SamePort p p') : p.byte = p'.byte := by
  obtain ⟨hre, hrd⟩ := h
  cases hp : p.re with
  | false => simp [ReadPort.byte, ← hre, hp]
  | true => simp [ReadPort.byte, ← hre, hp, (hrd hp).2]

theorem SamePort.quintetValue_eq {p0 p0' p1 p1' : ReadPort} (h0 : SamePort p0 p0') (h1 : SamePort p1 p1') (q : Nat) :
    quintetValue q p0 p1 = quintetValue q p0' p1' := by
  rw [quintetValue, quintetValue, h0.byte_eq, h1.byte_eq]

theorem sameAnswer_settle {p0 p0' p1 p1' : ReadPort} (h0 : SamePort p0 p0') (h1 : SamePort p1 p1') (s s' : State)
    (w : Word) : SameAnswer (.next (s.settle p0 p1 w)) (.next (s'.settle p0' p1' w)) :=
  ⟨_, _, rfl, rfl, rfl, h0.1, h1.1, h0.2, h1.2⟩

theorem sameAnswer_respond (s s' : State) (v padch : Bool) (data : BitVec 24) :
    SameAnswer (respond s v padch data) (respond s' v padch data) :=
  sameAnswer_settle (samePort_idlePort0 s s') (samePort_idlePort1 s s') ..

theorem sameAnswer_raiseErr (s s' : State) (c : ErrCode) : SameAnswer (raiseErr s c) (raiseErr s' c) :=
  sameAnswer_settle (samePort_idlePort0 s s') (samePort_idlePort1 s s') ..

section
variable {s s' : State} (hlen : s.len = s'.len)
include hlen

theorem sameAnswer_checkLen {k k' : Result} (h : s.len.toNat ≤ Config.nMax → SameAnswer k k') :
    SameAnswer (checkLen s k) (checkLen s' k') := by
  rcases Nat.lt_or_ge Config.nMax s.len.toNat with hl | hl
  · rw [checkLen_of_gt hl, checkLen_of_gt (hlen ▸ hl)]
    exact sameAnswer_raiseErr ..
  · rw [checkLen_of_le hl, checkLen_of_le (hlen ▸ hl)]
    exact h hl

theorem samePort_drivenPort {used : Bool} {a : Nat} {idle idle' : ReadPort} (hidle : SamePort idle idle')
    (hread : a < s.len.toNat → s.buf.read a = s'.buf.read a) :
    SamePort (drivenPort s used a idle) (drivenPort s' used a idle') := by
  have hre : readEnable s' used a = readEnable s used a := by rw [readEnable, readEnable, hlen]
  cases hu : readEnable s used a with
  | false =>
    rw [drivenPort_of_disabled idle hu, drivenPort_of_disabled idle' (hre.trans hu)]
    exact hidle
  | true =>
    rw [drivenPort_of_enabled idle hu, drivenPort_of_enabled idle' (hre.trans hu),
      hread (readEnable_eq_true.1 hu).2]
    exact ⟨rfl, fun _ => ⟨rfl, rfl⟩⟩

theorem samePort_quintetPort0 {q : Nat} (hw : SameWindow s s' q) : SamePort (quintetPort0 s q) (quintetPort0 s' q) :=
  samePort_drivenPort hlen (samePort_idlePort0 s s') fun ha => hw _ ha (.inl rfl)

theorem samePort_quintetPort1 {q : Nat} (hw : SameWindow s s' q) : SamePort (quintetPort1 s q) (quintetPort1 s' q) :=
  samePort_drivenPort hlen (samePort_idlePort1 s s') fun ha => hw _ ha (.inr rfl)

/-- Continuations that answer alike on ports that look alike make the two requests answer alike. -/
theorem sameAnswer_withQuintetPorts {q : Nat} {k k' : ReadPort → ReadPort → Result} (h : s.len.toNat ≤ Config.nMax)
    (hw : SameWindow s s' q)
    (hk : ∀ p0 p0' p1 p1', SamePort p0 p0' → SamePort p1 p1' → SameAnswer (k p0 p1) (k' p0' p1')) :
    SameAnswer (withQuintetPorts s q k) (withQuintetPorts s' q k') := by
  rw [withQuintetPorts_eq h, withQuintetPorts_eq (hlen ▸ h)]
  exact hk _ _ _ _ (samePort_quintetPort0 hlen hw) (samePort_quintetPort1 hlen hw)

theorem sameAnswer_execQuint {idx : BitVec 16} (hw : SameWindow s s' idx.toNat) :
    SameAnswer (execQuint idx s) (execQuint idx s') := by
  refine sameAnswer_checkLen hlen fun h => sameAnswer_withQuintetPorts hlen h hw fun p0 p0' p1 p1' h0 h1 => ?_
  rw [hlen, h0.quintetValue_eq h1]
  split <;> exact sameAnswer_settle h0 h1 ..

theorem sameAnswer_execFmt {idx : BitVec 16} {pad : Bool} (hw : SameWindow s s' idx.toNat) :
    SameAnswer (execFmt idx pad s) (execFmt idx pad s') := by
  refine sameAnswer_checkLen hlen fun h => ?_
  rw [hlen]
  split
  · refine sameAnswer_withQuintetPorts hlen h hw fun p0 p0' p1 p1' h0 h1 => ?_
    rw [h0.quintetValue_eq h1]
    exact sameAnswer_settle h0 h1 ..
  · split <;> exact sameAnswer_respond ..

theorem sameAnswer_execOlen (pad : Bool) : SameAnswer (execOlen pad s) (execOlen pad s') := by
  refine sameAnswer_checkLen hlen fun _ => ?_
  rw [hlen]
  exact sameAnswer_respond ..

/-- An instruction answers alike in states with the same LEN; QUINT and FMT need the bytes of their window as well. -/
theorem sameAnswer_exec {i : Instr}
    (hw : ∀ idx, (i = .quint idx ∨ ∃ pad, i = .fmt idx pad) → SameWindow s s' idx.toNat) :
    SameAnswer (exec i s) (exec i s') := by
  cases i with
  | quint idx => exact sameAnswer_execQuint hlen (hw idx (.inl rfl))
  | bitpos idx => exact sameAnswer_respond ..
  | comb lead trail => exact sameAnswer_respond ..
  | extr cnt ofs src =>
    simp only [exec, execExtr]
    split
    · exact sameAnswer_raiseErr ..
    · exact sameAnswer_respond ..
  | alpha val => exact sameAnswer_respond ..
  | fmt idx pad => exact sameAnswer_execFmt hlen (hw idx (.inr ⟨pad, rfl⟩))
  | olen pad => exact sameAnswer_execOlen hlen pad
  | reservedOp111 rest => exact sameAnswer_raiseErr ..

/-- A step answers alike in states with stable inputs, the same REQ and LEN and, for QUINT and FMT, the same window. -/
theorem sameAnswer_step (hs : s.inputsStable = true) (hs' : s'.inputsStable = true) (hreq : s.req = s'.req)
    (hw : ∀ idx, (decode s.req = .ok (.quint idx) ∨ ∃ pad, decode s.req = .ok (.fmt idx pad)) →
      SameWindow s s' idx.toNat) :
    SameAnswer (step s) (step s') := by
  cases hd : decode s.req with
  | ok i =>
    rw [step_of_decode hs hd, step_of_decode hs' (hreq ▸ hd)]
    exact sameAnswer_exec hlen fun idx hi => hw idx (by simpa [hd] using hi)
  | error r =>
    rw [step_of_reject hs hd, step_of_reject hs' (hreq ▸ hd)]
    exact sameAnswer_raiseErr ..

end

/-- Settles O44: LEN and REQ are the same, and a BUF that reads the same everywhere has the same bytes in every window. -/
theorem responseIsAFunctionOfTheInputs : Obligations.ResponseIsAFunctionOfTheInputs :=
  fun _ _ hs hs' hreq hlen hbuf => sameAnswer_step hlen hs hs' hreq fun _ _ a _ _ => hbuf a

end Sys2Proof.Machine
end

section
/-! Response words of the encoding rules: the reserved bits of each legal OP and the error they raise (R57, R94), and the
sum of fields that `respond` drives (R61). -/

namespace Sys2Proof.Machine

/-- For a legal OP the decoder's mask is the one that R57 writes out by OP number. -/
theorem rsvdMask_eq_reservedBits : ∀ {op : BitVec 3}, op.toNat ≠ 7 → rsvdMask op = reservedBits op.toNat := by
  decide

/-- A word with a legal OP and a reserved bit that is not zero is refused (R57). -/
theorem decode_of_reservedBits {w : Word} (hop : w.toNat / 2 ^ 29 ≠ 7)
    (hbits : w &&& reservedBits (w.toNat / 2 ^ 29) ≠ 0) : decode w = .error .rsvdNonzero := by
  rw [← opField_toNat] at hop hbits
  rw [decode_error_iff, rsvdMask_eq_reservedBits hop]
  exact hbits

/-- `raise Err(code)` answers the error response, with no BUF read and the environment's state unchanged (R91). -/
theorem raiseErr_answers (s : State) (c : ErrCode) :
    ∃ t, raiseErr s c = .next t ∧ t.rsp = errRsp c ∧ NoRead t ∧ EnvKept s t :=
  ⟨_, raiseErr_eq s c, rfl, ⟨rfl, rfl⟩, envKept_settle ..⟩

theorem errRsp_rsvdNonzero : errRsp .rsvdNonzero = 0x82000000#32 := by decide

/-- Settles O12: the decoder refuses the word, and a refused word raises Err(2). -/
theorem reservedBitsAnswerErrTwo : Obligations.ReservedBitsAnswerErrTwo := by
  intro s hs hop hbits
  rw [step_of_reject hs (decode_of_reservedBits hop hbits), ← errRsp_rsvdNonzero]
  exact raiseErr_answers s .rsvdNonzero

/-- The fields of a response do not overlap: the flags and the data, or-ed at their bits, add up (R61). -/
theorem flags_or_data_eq_add (v padch : Bool) (data : BitVec 24) :
    (v.toNat <<< 30) ||| (padch.toNat <<< 29) ||| data.toNat = v.toNat * 2 ^ 30 + padch.toNat * 2 ^ 29 + data.toNat := by
  have hdata := data.isLt
  have hpadch := padch.toNat_le
  rw [Nat.or_assoc, shiftLeft_or_eq_add (a := padch.toNat) (by omega), shiftLeft_or_eq_add (by omega), Nat.add_assoc]

/-- Settles O9: ERR, the zero bit and ECODE add nothing, and the other fields are those of the result response. -/
theorem respondDrivesItsFields : Obligations.RespondDrivesItsFields := by
  intro s v padch data
  refine ⟨_, respond_eq s v padch data, rspErr_resultRsp v padch data, ?_⟩
  rw [State.settle_rsp, resultRsp_toNat, ← flags_or_data_eq_add]
  simp

end Sys2Proof.Machine
end

section
/-! QX-1's quintet extractor (spec/40_quintet.md): the response words of BITPOS, COMB, EXTR and QUINT in the spec's own
arithmetic (R70 to R73), and the quintet that QUINT answers as five bits of the input's stream (R67). -/

namespace Sys2Proof.Machine

/-! ## From what `exec` is to what the request answers -/

/-- A response with V = 1 as the word that the rules write: DATA below bit 30 (R61). -/
theorem resultRsp_eq_ofNat (data : BitVec 24) :
    resultRsp true false data = BitVec.ofNat 32 ((1 <<< 30) ||| data.toNat) := by
  have hdata := data.isLt
  apply BitVec.eq_of_toNat_eq
  rw [resultRsp_toNat, shiftLeft_or_eq_add (by omega), BitVec.toNat_ofNat, Nat.mod_eq_of_lt (by omega)]
  simp

/-- A request whose meaning is `respond(1, 0, DATA)` answers DATA without a read (R61, R19). -/
theorem answersUnread_of_respond {i : Instr} {s : State} {data : BitVec 24} (h : exec i s = respond s true false data) :
    AnswersUnread i s (BitVec.ofNat 32 ((1 <<< 30) ||| data.toNat)) :=
  ⟨_, h.trans (respond_eq ..), resultRsp_eq_ofNat data, ⟨rfl, rfl⟩, envKept_settle ..⟩

/-- A request whose meaning is `raise Err(code)` answers the error response without a read (R91). -/
theorem answersUnread_of_raiseErr {i : Instr} {s : State} {c : ErrCode} (h : exec i s = raiseErr s c) :
    AnswersUnread i s (errRsp c) := by
  rw [AnswersUnread, h]
  exact raiseErr_answers s c

theorem errRsp_lenRange : errRsp .lenRange = 0x83000000#32 := by decide

theorem errRsp_extrRange : errRsp .extrRange = 0x84000000#32 := by decide

/-! ## The datapath as numbers -/

/-- A field at its place is its number shifted there, when the word has room for it. -/
theorem place_toNat {n k : Nat} (x : BitVec k) (lo : Nat) (h : k + lo ≤ n) : (place n x lo).toNat = x.toNat <<< lo := by
  have hlt : x.toNat <<< lo < 2 ^ n := (Nat.shiftLeft_lt x.isLt).trans_le (Nat.pow_le_pow_right (by decide) h)
  rw [place, BitVec.toNat_shiftLeft, BitVec.toNat_setWidth_of_le (by omega), Nat.mod_eq_of_lt hlt]

/-- For every index of a request the descriptor's fields hold the spec's numbers uncut (R68, R70). -/
theorem descriptor_toNat {q : Nat} (h : q < 2 ^ 16) :
    (descriptor q).toNat = ((11 - 5 * q % 8) <<< 20) ||| ((5 * q % 8) <<< 17) |||
      ((if 3 < 5 * q % 8 then 1 else 0) <<< 16) ||| (5 * q / 8) := by
  have hspan : (BitVec.ofBool (spans q)).toNat = if 3 < 5 * q % 8 then 1 else 0 := by
    by_cases hs : 3 < 5 * q % 8 <;> simp [spans, windowStart_eq, hs]
  simp (disch := omega) only [descriptor, BitVec.toNat_or, place_toNat, off16_eq, windowStart_eq, primaryIndex_eq,
    hspan, BitVec.toNat_ofNat, Nat.mod_eq_of_lt, Nat.shiftLeft_zero]

theorem combineBytes_toNat_or (lead trail : Byte) :
    (combineBytes lead trail).toNat = (lead.toNat <<< 8) ||| trail.toNat := by
  exact (combineBytes_toNat lead trail).trans (shiftLeft_or_eq_add trail.isLt).symm

/-- The quintet of two ports is the five bits of their bytes from bit `11 - s` up (R73). -/
theorem quintetValue_toNat (q : Nat) (p0 p1 : ReadPort) :
    (quintetValue q p0 p1).toNat =
      (((p0.byte.toNat <<< 8) ||| p1.byte.toNat) >>> (11 - 5 * q % 8)) &&& 0x1F := by
  rw [quintetValue, BitVec.toNat_setWidth, extractBits_toNat _ _ (by decide), combineBytes_toNat_or, off16_eq]
  exact Nat.mod_eq_of_lt (Nat.lt_succ_of_le Nat.and_le_right)

theorem byteAt_toNat (s : State) (i : Nat) :
    (s.byteAt i).toNat = if i < s.len.toNat then (s.buf.read i).toNat else 0 :=
  apply_ite BitVec.toNat ..

/-! ## BITPOS, COMB and EXTR -/

/-- Settles O21: the response's DATA is the descriptor, and an index of 16 bits cuts none of its fields. -/
theorem bitposAnswersTheDescriptor : Obligations.BitposAnswersTheDescriptor := by
  intro s idx
  have answered : AnswersUnread (.bitpos idx) s _ := answersUnread_of_respond rfl
  rwa [descriptor_toNat idx.isLt] at answered

/-- Settles O22: DATA is the 16-bit concatenation, widened. -/
theorem combConcatenatesItsBytes : Obligations.CombConcatenatesItsBytes := by
  intro s lead trail
  have answered : AnswersUnread (.comb lead trail) s _ := answersUnread_of_respond rfl
  rwa [BitVec.toNat_setWidth_of_le (by decide), combineBytes_toNat_or] at answered

/-- Settles O23: by the range check's two branches. -/
theorem extrExtractsItsField : Obligations.ExtrExtractsItsField := by
  intro s cnt ofs src
  refine ⟨fun hin => ?_, fun hout => ?_⟩
  · have answered : AnswersUnread (.extr cnt ofs src) s _ := answersUnread_of_respond (if_neg (Nat.not_lt.2 hin))
    rwa [BitVec.toNat_setWidth_of_le (by decide), extractBits_toNat _ _ (by omega)] at answered
  · rw [← errRsp_extrRange]
    exact answersUnread_of_raiseErr (if_pos hout)

/-! ## QUINT -/

section
variable {s : State} {idx : BitVec 16}

/-- Over N_MAX, QUINT is Err(3) (R95). -/
theorem quint_answersUnread_of_gt (h : Config.nMax < s.len.toNat) : AnswersUnread (.quint idx) s 0x83000000#32 := by
  rw [← errRsp_lenRange]
  exact answersUnread_of_raiseErr (checkLen_of_gt h _)

/-- Below QCNT, QUINT answers the quintet of its two ports (R73). -/
theorem quint_answers_of_lt (h : s.len.toNat ≤ Config.nMax) (hq : idx.toNat < qcnt s.len.toNat) :
    Answers (.quint idx) s (BitVec.ofNat 32 ((1 <<< 30) |||
      (quintetValue idx.toNat (quintetPort0 s idx.toNat) (quintetPort1 s idx.toNat)).toNat)) := by
  refine ⟨_, execQuint_of_le h idx, ?_, envKept_settle ..⟩
  rw [State.settle_rsp, if_pos hq, resultRsp_eq_ofNat, BitVec.toNat_setWidth_of_le (by decide)]

/-- From QCNT on, both bytes lie past LEN: QUINT answers the word 0 and enables no port (R19, R73). -/
theorem quint_answersUnread_of_ge (h : s.len.toNat ≤ Config.nMax) (hq : qcnt s.len.toNat ≤ idx.toNat) :
    AnswersUnread (.quint idx) s 0x00000000#32 := by
  have hprimary : s.len.toNat ≤ primaryIndex idx.toNat := by
    rw [qcnt_eq] at hq
    rw [primaryIndex_eq]
    omega
  refine ⟨_, execQuint_of_le h idx, ?_, ⟨?_, ?_⟩, envKept_settle ..⟩
  · rw [State.settle_rsp, if_neg (Nat.not_lt.2 hq)]
    decide
  · exact quintetPort0_re_eq_false.2 hprimary
  · exact quintetPort1_re_eq_false.2 fun _ => Nat.le_succ_of_le hprimary

end

/-- Settles O24: by the LEN check, and then by QCNT. -/
theorem quintAnswersItsWindow : Obligations.QuintAnswersItsWindow := by
  intro s idx
  refine ⟨quint_answersUnread_of_gt, fun hlen => ⟨fun hq => ?_, fun hq => ?_⟩⟩
  · have answered := quint_answers_of_lt hlen (qcnt_eq s.len.toNat ▸ hq)
    simpa only [quintetValue_toNat, quintetPort0_byte, quintetPort1_byte, apply_ite BitVec.toNat, byteAt_toNat,
      spans_eq_true, primaryIndex_eq, secondaryIndex_eq, BitVec.toNat_zero] using answered
  · exact quint_answersUnread_of_ge hlen (qcnt_eq s.len.toNat ▸ hq)

/-! ## The quintet as five bits of the stream -/

/-- A stream bit of the input is its bit of the zero-filled byte, past the last byte too (R31, R67). -/
theorem streamBit_input (s : State) (j : Nat) :
    streamBit s.input j = ((s.byteAt (j / 8)).toNat >>> (7 - j % 8)) &&& 1 := by
  have hlength : s.input.length = s.len.toNat := by simp [State.input]
  rw [streamBit, hlength, byteAt_toNat]
  by_cases hj : j / 8 < s.len.toNat
  · rw [if_pos (by omega), if_pos hj]
    simp [State.input, hj]
  · rw [if_neg (by omega), if_neg hj]
    simp

theorem shiftRight_and_one (x e : Nat) : (x >>> e) &&& 1 = (x.testBit e).toNat := by
  rw [Nat.toNat_testBit, Nat.and_one_is_mod, Nat.shiftRight_eq_div_pow]

/-- The leading byte holds the upper eight bits of a window, the trailing byte the lower eight. -/
theorem window_testBit (lead trail : Byte) (e : Nat) :
    ((lead.toNat <<< 8) ||| trail.toNat).testBit e = if 8 ≤ e then lead.toNat.testBit (e - 8) else trail.toNat.testBit e := by
  rw [Nat.testBit_or, Nat.testBit_shiftLeft]
  by_cases he : 8 ≤ e
  · have htrail : trail.toNat.testBit e = false := BitVec.getLsbD_of_ge trail e he
    simp [he, htrail]
  · simp [he]

/-- Bit `i` of quintet `q`'s window, counted from the window's start, is the stream bit `5q + i`. A window that does not
span has its five bits in the primary byte, so the secondary byte left out is not looked at (R65, R67). -/
theorem window_bit (s : State) (q : Nat) {i : Nat} (hi : i ≤ 4) :
    ((((quintetPort0 s q).byte.toNat <<< 8) ||| (quintetPort1 s q).byte.toNat) >>> (11 - 5 * q % 8 + (4 - i))) &&& 1 =
      streamBit s.input (5 * q + i) := by
  rw [streamBit_input, shiftRight_and_one, shiftRight_and_one, window_testBit]
  by_cases hin : 5 * q % 8 + i < 8
  · have hbyte : (5 * q + i) / 8 = primaryIndex q := by rw [primaryIndex_eq]; omega
    have hbit : 11 - 5 * q % 8 + (4 - i) - 8 = 7 - (5 * q + i) % 8 := by omega
    rw [if_pos (by omega), quintetPort0_byte, hbyte, hbit]
  · have hspans : spans q = true := spans_eq_true.2 (by omega)
    have hbyte : (5 * q + i) / 8 = secondaryIndex q := by rw [secondaryIndex_eq]; omega
    have hbit : 11 - 5 * q % 8 + (4 - i) = 7 - (5 * q + i) % 8 := by omega
    rw [if_neg (by omega), quintetPort1_byte, if_pos hspans, hbyte, hbit]

/-- The five low bits of a number from its bit `d` up are those bits one by one. -/
theorem shiftRight_and_31 (w d : Nat) :
    (w >>> d) &&& 0x1F = (((w >>> (d + 4)) &&& 1) <<< 4) + (((w >>> (d + 3)) &&& 1) <<< 3) +
      (((w >>> (d + 2)) &&& 1) <<< 2) + (((w >>> (d + 1)) &&& 1) <<< 1) + (((w >>> d) &&& 1) <<< 0) := by
  have hmask : (w >>> d) &&& 0x1F = (w >>> d) % 2 ^ 5 := Nat.and_two_pow_sub_one_eq_mod _ 5
  simp only [hmask, Nat.shiftRight_add, Nat.and_one_is_mod, Nat.shiftLeft_eq, Nat.shiftRight_eq_div_pow _ 1,
    Nat.shiftRight_eq_div_pow _ 2, Nat.shiftRight_eq_div_pow _ 3, Nat.shiftRight_eq_div_pow _ 4]
  omega

/-- The quintet that the ports of `q` give is the stream's quintet (R67). -/
theorem quintetValue_eq_streamQuintet (s : State) (q : Nat) :
    (quintetValue q (quintetPort0 s q) (quintetPort1 s q)).toNat = streamQuintet s.input q := by
  have first_bit : _ = streamBit s.input (5 * q) := window_bit s q (i := 0) (by decide)
  rw [quintetValue_toNat, shiftRight_and_31, streamQuintet, ← first_bit, ← window_bit s q (i := 1) (by decide),
    ← window_bit s q (i := 2) (by decide), ← window_bit s q (i := 3) (by decide), ← window_bit s q (i := 4) (by decide)]
  rfl

/-- Settles O25: QUINT answers the quintet of its ports, which is the stream's. -/
theorem quintIsTheStreamQuintet : Obligations.QuintIsTheStreamQuintet := by
  intro s idx hlen hq
  rw [← quintetValue_eq_streamQuintet]
  exact quint_answers_of_lt hlen (qcnt_eq s.len.toNat ▸ hq)

end Sys2Proof.Machine
end

section
/-! QX-1's alphabet mapper and output formatter (spec/41_alphabet_format.md): the lengths of R78 and the response words of
ALPHA, OLEN and FMT (R80 to R82). -/

namespace Sys2Proof.Machine

/-! ## The lengths -/

theorem plen_eq_ceil (n : Nat) : plen n = 8 * ((qcnt n + 7) / 8) := rfl

/-- Settles O32: rounding up to a multiple of 8 gives the least one. -/
theorem paddedLengthIsLeastMultipleOfEight : Obligations.PaddedLengthIsLeastMultipleOfEight := by
  intro n
  rw [outLen_true, plen_eq_ceil, ← outLen_false]
  exact ⟨qcnt_eq n, rfl, by omega, by omega, by omega, by omega⟩

/-- The output length of an input within N_MAX fits DATA with room to spare (R68). -/
theorem outLen_le {n : Nat} (h : n ≤ Config.nMax) (pad : Bool) : outLen n pad ≤ 65536 := by
  have hn : n ≤ 40960 := h
  cases pad
  · rw [outLen_false, qcnt_eq]
    omega
  · rw [outLen_true, plen_eq]
    omega

/-! ## ALPHA and OLEN -/

/-- R39's table by its two runs: the letters from `A`, then the digits from `2`. -/
theorem romRead_toNat : ∀ val : BitVec 5,
    (romRead val).toNat = if val.toNat ≤ 25 then 0x41 + val.toNat else 0x32 + (val.toNat - 26) := by
  decide

/-- Settles O28: ALPHA responds with the ROM's entry, which is the code of R39. -/
theorem alphaAnswersItsCharacter : Obligations.AlphaAnswersItsCharacter := by
  intro s val
  have answered : AnswersUnread (.alpha val) s _ := answersUnread_of_respond rfl
  rwa [BitVec.toNat_setWidth_of_le (by decide), romRead_toNat] at answered

/-- Within N_MAX, OLEN answers the output length (R82). -/
theorem olen_answersUnread_of_le {s : State} (h : s.len.toNat ≤ Config.nMax) (pad : Bool) :
    AnswersUnread (.olen pad) s (BitVec.ofNat 32 ((1 <<< 30) ||| outLen s.len.toNat pad)) := by
  have hlen := outLen_le h pad
  have answered : AnswersUnread (.olen pad) s _ := answersUnread_of_respond (checkLen_of_le h _)
  rwa [BitVec.toNat_ofNat, Nat.mod_eq_of_lt (by omega)] at answered

/-- Settles O31: by the LEN check; the length is then the one that R78 gives. -/
theorem olenAnswersTheLength : Obligations.OlenAnswersTheLength := by
  intro s pad
  refine ⟨fun hgt => ?_, fun hle => ?_⟩
  · rw [← errRsp_lenRange]
    exact answersUnread_of_raiseErr (checkLen_of_gt hgt _)
  · simpa only [outLen, plen_eq_ceil, qcnt_eq] using olen_answersUnread_of_le hle pad

/-! ## FMT -/

section
variable {s : State} {idx : BitVec 16} {pad : Bool}

/-- Over N_MAX, FMT is Err(3) (R95). -/
theorem fmt_answersUnread_of_gt (h : Config.nMax < s.len.toNat) : AnswersUnread (.fmt idx pad) s 0x83000000#32 := by
  rw [← errRsp_lenRange]
  exact answersUnread_of_raiseErr (checkLen_of_gt h _)

/-- Below QCNT, FMT drives QUINT's ports and answers the ROM's entry of QUINT's DATA (R81). -/
theorem fmt_answers_like_quint (h : s.len.toNat ≤ Config.nMax) (hk : idx.toNat < qcnt s.len.toNat) :
    ∃ t tq, exec (.fmt idx pad) s = .next t ∧ exec (.quint idx) s = .next tq ∧
      t.rsp = BitVec.ofNat 32 ((1 <<< 30) ||| (romRead (BitVec.ofNat 5 (rspData tq.rsp).toNat)).toNat) ∧
      SameOutputs { t with rsp := tq.rsp } tq ∧ EnvKept s t := by
  refine ⟨_, _, execFmt_of_lt h pad hk, execQuint_of_le h idx, ?_,
    ⟨rfl, rfl, rfl, fun _ => ⟨rfl, rfl⟩, fun _ => ⟨rfl, rfl⟩⟩, envKept_settle ..⟩
  rw [State.settle_rsp, State.settle_rsp, if_pos hk, rspData_resultRsp, resultRsp_eq_ofNat,
    BitVec.toNat_setWidth_of_le (by decide), BitVec.toNat_setWidth_of_le (by decide), BitVec.ofNat_toNat,
    BitVec.setWidth_eq]

/-- From QCNT up to PLEN with PAD = 1, FMT answers the pad character without a read (R81). -/
theorem fmt_answersUnread_pad (h : s.len.toNat ≤ Config.nMax) (hk : qcnt s.len.toNat ≤ idx.toNat) (hpad : pad = true)
    (hplen : idx.toNat < plen s.len.toNat) : AnswersUnread (.fmt idx pad) s 0x6000003D#32 := by
  refine ⟨_, execFmt_of_ge h pad hk, ?_, ⟨rfl, rfl⟩, envKept_settle ..⟩
  rw [State.settle_rsp, if_pos (by simp [hpad, hplen])]
  decide

/-- Past the output's end, FMT answers the word 0 without a read (R81). -/
theorem fmt_answersUnread_of_ge (h : s.len.toNat ≤ Config.nMax) (hk : qcnt s.len.toNat ≤ idx.toNat)
    (hend : pad = true → plen s.len.toNat ≤ idx.toNat) : AnswersUnread (.fmt idx pad) s 0x00000000#32 := by
  refine ⟨_, execFmt_of_ge h pad hk, ?_, ⟨rfl, rfl⟩, envKept_settle ..⟩
  rw [State.settle_rsp, if_neg (by simpa using hend)]
  decide

end

/-- Settles O30: by the LEN check, and then by the position: below QCNT, a pad, or past the end. -/
theorem fmtAnswersItsPosition : Obligations.FmtAnswersItsPosition := by
  intro s idx pad
  refine ⟨fmt_answersUnread_of_gt, fun hlen => ?_⟩
  simp only [← qcnt_eq, ← plen_eq_ceil]
  exact ⟨fmt_answers_like_quint hlen, fmt_answersUnread_pad hlen, fmt_answersUnread_of_ge hlen⟩

end Sys2Proof.Machine
end

section
/-! The encode of a set-up input: what the set-up of R113 puts in BUF, what the encode program of R83 collects from a stable
block, and the source's vectors (R89), which are the two together on concrete bytes. -/

namespace Sys2Proof.Machine

/-! ## The input -/

@[simp] theorem input_length (s : State) : s.input.length = s.len.toNat := by
  simp only [State.input, List.length_map, List.length_range]

/-- The environment holds `input` stable as the block's input bytes (R27, R114). -/
def Presents (s : State) (input : List Byte) : Prop := s.inputsStable = true ∧ s.input = input

theorem Presents.len_toNat {s : State} {input : List Byte} (h : Presents s input) : s.len.toNat = input.length := by
  rw [← h.2, input_length]

/-- Writing bytes from `a` up leaves the addresses below alone, and the bytes are read back in order (R27, R41). -/
theorem writeBytes_reads {bytes : List Byte} {a : Nat} (h : a + bytes.length ≤ Config.nMax) (s : State) :
    ∃ t, writeBytes bytes a s = .next t ∧ (∀ c < a, t.buf.read c = s.buf.read c) ∧
      (List.range' a bytes.length).map t.buf.read = bytes := by
  induction bytes generalizing a s with
  | nil => exact ⟨s, rfl, fun _ _ => rfl, rfl⟩
  | cons b bs ih =>
    rw [List.length_cons] at h
    have written : s.writeBuf a b = .next { s with buf := s.buf.write a b } := if_pos (by omega)
    obtain ⟨t, hrun, hbelow, hbytes⟩ := ih (a := a + 1) (by omega) { s with buf := s.buf.write a b }
    refine ⟨t, ?_, fun c hc => ?_, ?_⟩
    · rw [writeBytes, written]
      exact hrun
    · rw [hbelow c (by omega)]
      exact Memory.read_write_of_ne _ _ hc.ne
    · have first : t.buf.read a = b := (hbelow a (by omega)).trans (Memory.read_write_self ..)
      rw [List.length_cons, List.range'_succ, List.map_cons, first, hbytes]

/-- After the set-up of R113 the block is presented with the bytes. -/
theorem setUp_presents {bytes : List Byte} (h : bytes.length ≤ Config.nMax) (s : State) :
    ∃ t, s.setUp bytes = .next t ∧ Presents t bytes := by
  obtain ⟨t, hrun, -, hbytes⟩ := writeBytes_reads (a := 0) (bytes := bytes) (by omega) s
  refine ⟨_, by rw [State.setUp, hrun], rfl, ?_⟩
  have hlen : (BitVec.ofNat 16 bytes.length).toNat = bytes.length :=
    Nat.mod_eq_of_lt (h.trans_lt (by decide))
  simpa [State.input, hlen, List.range_eq_range'] using hbytes

/-! ## The encode program -/

theorem base32_length (input : List Byte) (pad : Bool) : (base32 input pad).length = outLen input.length pad := by
  have hle : qcnt input.length ≤ outLen input.length pad := by
    cases pad
    · exact le_rfl
    · rw [outLen_true, plen_eq_ceil]
      omega
  simp [base32, hle]

/-- Below the output length, FMT answers without error and its DATA is the character of `base32` at its index. -/
theorem fmt_collects {s : State} {idx : BitVec 16} {pad : Bool} (h : s.len.toNat ≤ Config.nMax)
    (hk : idx.toNat < outLen s.len.toNat pad) :
    ∃ p0 p1 w, exec (.fmt idx pad) s = .next (s.settle p0 p1 w) ∧ rspErr w = false ∧
      (base32 s.input pad)[idx.toNat]? = some ((rspData w).setWidth 8) := by
  rcases Nat.lt_or_ge idx.toNat (qcnt s.len.toNat) with hq | hq
  · refine ⟨_, _, _, execFmt_of_lt h pad hq, rspErr_resultRsp .., ?_⟩
    rw [base32, List.getElem?_append_left (by simpa using hq)]
    simp [hq, ← quintetValue_eq_streamQuintet]
  · cases pad with
    | false => exact absurd hk (Nat.not_lt.2 hq)
    | true =>
      have hexec := execFmt_of_ge h true hq
      rw [if_pos (by simpa [outLen_true] using hk)] at hexec
      refine ⟨_, _, _, hexec, rspErr_resultRsp .., ?_⟩
      rw [base32, List.getElem?_append_right (by simpa using hq),
        List.getElem?_replicate_of_lt (by simpa using Nat.sub_lt_sub_right hq hk), rspData_resultRsp]
      decide

theorem decode_encode_fmt (idx : BitVec 16) (pad : Bool) : decode (encode (.fmt idx pad)) = .ok (.fmt idx pad) := by
  have hop : opField (encode (.fmt idx pad)) = 5#3 := by
    apply BitVec.eq_of_getLsbD_eq
    intro j hj
    interval_cases j <;> simp [opField, encode, place]
  have hidx : (encode (.fmt idx pad)).extractLsb' 0 16 = idx := by
    apply BitVec.eq_of_getLsbD_eq
    intro j hj
    interval_cases j <;> simp [encode, place]
  have hpad : (encode (.fmt idx pad)).getLsbD 16 = pad := by simp [encode, place]
  refine (decode_ok_iff ..).2 ⟨?_, ?_⟩
  · rw [hop]
    apply BitVec.eq_of_getLsbD_eq
    intro j hj
    interval_cases j <;> simp [rsvdMask, encode, place]
  · rw [decodeFields, hop, hidx, hpad]
    rfl

theorem decode_encode_olen (pad : Bool) : decode (encode (.olen pad)) = .ok (.olen pad) := by
  cases pad <;> decide

theorem AnswersUnread.answers {i : Instr} {s : State} {w : Word} (h : AnswersUnread i s w) : Answers i s w := by
  obtain ⟨t, hexec, hrsp, -, hkept⟩ := h
  exact ⟨t, hexec, hrsp, hkept⟩

section
variable {input : List Byte} (h : input.length ≤ Config.nMax) {s : State}
include h

/-- OLEN, asked for, answers the output length, and the input stays presented (R82). -/
theorem ask_olen (hs : Presents s input) (pad : Bool) :
    ∃ t, ask s (.olen pad) = .ok t ∧ Presents t input ∧ (rspData t.rsp).toNat = outLen input.length pad := by
  have hmax := outLen_le h pad
  have hexec := execOlen_of_le (s := s.present (encode (.olen pad))) (hs.len_toNat ▸ h) pad
  refine ⟨_, ask_of_answer hs.1 (decode_encode_olen pad) hexec (rspErr_resultRsp ..), hs, ?_⟩
  rw [State.settle_rsp, rspData_resultRsp, State.present_len, hs.len_toNat, BitVec.toNat_ofNat,
    Nat.mod_eq_of_lt (by omega)]

/-- FMT, asked for a position of the output, answers its character, and the input stays presented (R81, R83). -/
theorem ask_fmt (hs : Presents s input) {k : Nat} {pad : Bool} (hk : k < outLen input.length pad) :
    ∃ t, ask s (.fmt (BitVec.ofNat 16 k) pad) = .ok t ∧ Presents t input ∧
      (base32 input pad)[k]? = some ((rspData t.rsp).setWidth 8) := by
  have hidx : (BitVec.ofNat 16 k).toNat = k := Nat.mod_eq_of_lt (hk.trans_le (outLen_le h pad))
  obtain ⟨p0, p1, w, hexec, hok, hchar⟩ := fmt_collects (s := s.present (encode (.fmt (BitVec.ofNat 16 k) pad)))
    (idx := BitVec.ofNat 16 k) (pad := pad) (hs.len_toNat ▸ h) (by rwa [hidx, State.present_len, hs.len_toNat])
  rw [hidx] at hchar
  exact ⟨_, ask_of_answer hs.1 (decode_encode_fmt ..) hexec hok, hs, hs.2 ▸ hchar⟩

/-- Asked for the positions from `k` to the end, the block gives the rest of the Base32 text (R83). -/
theorem collect_eq_base32 {pad : Bool} {count k : Nat} (hs : Presents s input)
    (hk : k + count = outLen input.length pad) :
    ∃ xs u, collect pad count k s = .ok (xs, u) ∧ xs.map Exchange.character = (base32 input pad).drop k := by
  induction count generalizing k s with
  | zero => exact ⟨[], s, rfl, (List.drop_of_length_le (by rw [base32_length]; omega)).symm⟩
  | succ count ih =>
    obtain ⟨t, asked, ht, hchar⟩ := ask_fmt h hs (k := k) (pad := pad) (by omega)
    obtain ⟨xs, u, hrest, hchars⟩ := ih ht (k := k + 1) (by omega)
    obtain ⟨hlt, hget⟩ := List.getElem?_eq_some_iff.1 hchar
    refine ⟨_, u, collect_cons asked hrest, ?_⟩
    rw [List.drop_eq_getElem_cons hlt, hget, List.map_cons, hchars]
    rfl

/-- The encode program collects the Base32 text of the input (R83). -/
theorem encodeObs_eq_base32 (hs : Presents s input) (pad : Bool) : encodeObs pad s = .ok (base32 input pad) := by
  obtain ⟨t, asked, ht, hlen⟩ := ask_olen h hs pad
  obtain ⟨xs, u, hcollect, hchars⟩ := collect_eq_base32 h ht (Nat.zero_add (outLen input.length pad))
  rw [encodeObs_of_run (encodeRun_of_collect asked (hlen ▸ hcollect)), List.tail_cons, hchars]
  rfl

/-- QUINT answers the input's quintet below QCNT and the word 0 from there on (R67, R73). -/
theorem quint_answers_stream (hs : Presents s input) (idx : BitVec 16) : Answers (.quint idx) s
    (if idx.toNat < qcnt input.length then BitVec.ofNat 32 ((1 <<< 30) ||| streamQuintet input idx.toNat)
      else 0x00000000#32) := by
  obtain ⟨-, rfl⟩ := hs
  rw [input_length] at h ⊢
  split
  next hq =>
    rw [← quintetValue_eq_streamQuintet]
    exact quint_answers_of_lt h hq
  next hq => exact (quint_answersUnread_of_ge h (Nat.not_lt.1 hq)).answers

end

/-! ## The vectors -/

/-- Settles O43: each vector is the text or the quintets of its bytes, computed from the stream. -/
theorem concreteVectorsAreReproduced : Obligations.ConcreteVectorsAreReproduced := by
  intro s
  have hello_text (pad : Bool) : base32 [0x68#8, 0x65#8, 0x6C#8, 0x6C#8, 0x6F#8] pad =
      [0x4E#8, 0x42#8, 0x53#8, 0x57#8, 0x59#8, 0x33#8, 0x44#8, 0x50#8] := by cases pad <;> decide
  have empty_text (pad : Bool) : base32 [] pad = [] := by cases pad <;> decide
  obtain ⟨hello, hello_set, hello_in⟩ := setUp_presents (bytes := [0x68#8, 0x65#8, 0x6C#8, 0x6C#8, 0x6F#8]) (by decide) s
  obtain ⟨z, z_set, z_in⟩ := setUp_presents (bytes := [0x5A#8]) (by decide) s
  obtain ⟨two, two_set, two_in⟩ := setUp_presents (bytes := [0x74#8, 0xF7#8]) (by decide) s
  obtain ⟨one, one_set, one_in⟩ := setUp_presents (bytes := [0xFF#8]) (by decide) s
  obtain ⟨empty, empty_set, empty_in⟩ := setUp_presents (bytes := []) (by decide) s
  have z_encode := encodeObs_eq_base32 (by decide) z_in
  have two_quint := quint_answers_stream (by decide) two_in
  have one_quint := quint_answers_stream (by decide) one_in
  exact ⟨fun pad => ⟨hello, hello_set, hello_text pad ▸ encodeObs_eq_base32 (by decide) hello_in pad⟩,
    ⟨z, z_set, z_encode false, z_encode true⟩,
    ⟨two, two_set, two_quint 0, two_quint 1, two_quint 2, two_quint 3, two_quint 4⟩,
    ⟨one, one_set, one_quint 0, one_quint 1, one_quint 2⟩, (bitposAnswersTheDescriptor s 4).answers,
    fun pad => ⟨empty, empty_set, empty_text pad ▸ encodeObs_eq_base32 (by decide) empty_in pad⟩⟩

end Sys2Proof.Machine
end

section
/-! The errors (spec/60_exceptions.md): which error each instruction raises and which a step answers, in the order of R98.
One rule says that a raised error is `raiseErr`, and one that without it the response is no error; the statements on R91, R93,
R95, R97 and R98 follow. -/

namespace Sys2Proof.Machine

/-! ## The error an instruction raises -/

/-- The error of the LEN check (R95, R96). -/
def lenFault (s : State) : Option ErrCode := if Config.nMax < s.len.toNat then some .lenRange else none

theorem lenFault_eq (s : State) : lenFault s = if 40960 < s.len.toNat then some .lenRange else none := rfl

/-- The error an instruction raises, if any (R92). -/
def instrFault (s : State) : Instr → Option ErrCode
  | .quint _ | .fmt _ _ | .olen _ => lenFault s
  | .extr cnt ofs _ => if 16 < ofs.toNat + cnt.toNat then some .extrRange else none
  | .bitpos _ | .comb _ _ | .alpha _ => none
  | .reservedOp111 _ => some .illegalOp

/-- A request that answers without an error. -/
def Succeeds (r : Result) : Prop := ∃ t, r = .next t ∧ rspErr t.rsp = false

theorem succeeds_respondReading (s : State) (p0 p1 : ReadPort) (v padch : Bool) (data : BitVec 24) :
    Succeeds (respondReading s p0 p1 v padch data) := ⟨_, rfl, rspErr_resultRsp ..⟩

theorem succeeds_respond (s : State) (v padch : Bool) (data : BitVec 24) : Succeeds (respond s v padch data) :=
  succeeds_respondReading ..

section
variable {s : State}

theorem checkLen_of_lenFault {c : ErrCode} (h : lenFault s = some c) (k : Result) : checkLen s k = raiseErr s c := by
  obtain ⟨hgt, rfl⟩ : Config.nMax < s.len.toNat ∧ .lenRange = c := by simpa [lenFault] using h
  exact checkLen_of_gt hgt k

theorem succeeds_checkLen {k : Result} (h : lenFault s = none) (hk : s.len.toNat ≤ Config.nMax → Succeeds k) :
    Succeeds (checkLen s k) := by
  have hle : s.len.toNat ≤ Config.nMax := by simpa [lenFault] using h
  rw [checkLen_of_le hle]
  exact hk hle

/-- The error that an instruction raises is all that it does (R90, R91). -/
theorem exec_of_fault {i : Instr} {c : ErrCode} (h : instrFault s i = some c) : exec i s = raiseErr s c := by
  cases i with
  | quint idx => exact checkLen_of_lenFault h _
  | bitpos idx => cases h
  | comb lead trail => cases h
  | extr cnt ofs src =>
    obtain ⟨hout, rfl⟩ : 16 < ofs.toNat + cnt.toNat ∧ .extrRange = c := by simpa [instrFault] using h
    exact if_pos hout
  | alpha val => cases h
  | fmt idx pad => exact checkLen_of_lenFault h _
  | olen pad => exact checkLen_of_lenFault h _
  | reservedOp111 rest => cases h; rfl

/-- An instruction that raises no error answers with ERR = 0. -/
theorem exec_succeeds {i : Instr} (h : instrFault s i = none) : Succeeds (exec i s) := by
  cases i with
  | quint idx =>
    refine succeeds_checkLen h fun hle => ?_
    rw [withQuintetPorts_eq hle]
    split <;> exact succeeds_respondReading ..
  | bitpos idx => exact succeeds_respond ..
  | comb lead trail => exact succeeds_respond ..
  | extr cnt ofs src =>
    have hin : ¬16 < ofs.toNat + cnt.toNat := by simpa [instrFault] using h
    rw [exec, execExtr, if_neg hin]
    exact succeeds_respond ..
  | alpha val => exact succeeds_respond ..
  | fmt idx pad =>
    refine succeeds_checkLen h fun hle => ?_
    split
    · rw [withQuintetPorts_eq hle]
      exact succeeds_respondReading ..
    · split <;> exact succeeds_respond ..
  | olen pad => exact succeeds_checkLen h fun _ => succeeds_respond ..
  | reservedOp111 rest => cases h

/-! ## The error response -/

theorem errRsp_illegalOp : errRsp .illegalOp = 0x81000000#32 := by decide

theorem errRsp_toNat (c : ErrCode) : (errRsp c).toNat = (1 <<< 31) ||| (c.ecode.toNat <<< 24) := by
  cases c <;> decide

/-- The issuer's fault is read back from the error response (R91, R92). -/
theorem issuerFault_of_rsp {t : State} {c : ErrCode} (h : t.rsp = errRsp c) : t.issuerFault = some c := by
  rw [State.issuerFault, h]
  cases c <;> decide

/-- An error response on RSP tells which error the instruction raised. -/
theorem instrFault_of_rsp {i : Instr} {t : State} {c : ErrCode} (hexec : exec i s = .next t) (h : t.rsp = errRsp c) :
    instrFault s i = some c := by
  cases hf : instrFault s i with
  | none =>
    obtain ⟨t', hexec', hok⟩ := exec_succeeds hf
    cases hexec.symm.trans hexec'
    simp [h] at hok
  | some c' =>
    obtain ⟨t', hraise, hrsp, -⟩ := raiseErr_answers s c'
    cases hexec.symm.trans ((exec_of_fault hf).trans hraise)
    rw [← issuerFault_of_rsp h, issuerFault_of_rsp hrsp]

end

/-! ## The LEN check and EXTR's range (R95, R97) -/

/-- Settles O13: QUINT, FMT and OLEN by the LEN check; the other four are `respond` or EXTR's error whatever LEN is, and the
LEN check's error is not among theirs. -/
theorem lenIsCheckedByThreeRequests : Obligations.LenIsCheckedByThreeRequests := by
  refine ⟨fun s hgt => ⟨fun _ => quint_answersUnread_of_gt hgt, fun _ _ => fmt_answersUnread_of_gt hgt,
    fun pad => (olenAnswersTheLength s pad).1 hgt⟩, fun s n i hi => ?_⟩
  obtain ⟨alike, never⟩ : SameAnswer (exec i s) (exec i (s.driveLen n)) ∧ instrFault s i ≠ some .lenRange := by
    obtain ⟨idx, rfl⟩ | ⟨lead, trail, rfl⟩ | ⟨cnt, ofs, src, rfl⟩ | ⟨val, rfl⟩ := hi
    · exact ⟨sameAnswer_respond .., nofun⟩
    · exact ⟨sameAnswer_respond .., nofun⟩
    · simp only [exec, execExtr, instrFault]
      split
      · exact ⟨sameAnswer_raiseErr .., nofun⟩
      · exact ⟨sameAnswer_respond .., nofun⟩
    · exact ⟨sameAnswer_respond .., nofun⟩
  obtain ⟨t, t', ht, ht', hrsp, -⟩ := alike
  exact ⟨t, t', ht, ht', hrsp.symm, fun h => never (instrFault_of_rsp ht (h.trans errRsp_lenRange.symm))⟩

/-- An instruction that can only fail the LEN check completes, and not with Err(4). -/
theorem exec_rsp_ne_extrRange {s : State} {i : Instr} (h : instrFault s i = lenFault s) :
    ∃ t, exec i s = .next t ∧ t.rsp ≠ 0x84000000#32 := by
  obtain ⟨p0, p1, w, hexec⟩ := exec_settles i s
  refine ⟨_, hexec, fun hrsp => ?_⟩
  have raised : lenFault s = some .extrRange := h ▸ instrFault_of_rsp hexec (hrsp.trans errRsp_extrRange.symm)
  simp [lenFault] at raised

/-- Settles O14: EXTR by its range check; QUINT and FMT raise the LEN check's error only. -/
theorem extrRangeAnswersErrFour : Obligations.ExtrRangeAnswersErrFour :=
  ⟨fun s cnt ofs src => (extrExtractsItsField s cnt ofs src).2, fun _ _ => exec_rsp_ne_extrRange rfl,
    fun _ _ _ => exec_rsp_ne_extrRange rfl⟩

/-! ## The error a step answers -/

/-- The error of the request on REQ: that of a refused word, or that of the decoded instruction. -/
def stepFault (s : State) : Option ErrCode :=
  match decode s.req with
  | .ok i => instrFault s i
  | .error _ => some .rsvdNonzero

section
variable {s : State}

theorem stepFault_of_decode {i : Instr} (h : decode s.req = .ok i) : stepFault s = instrFault s i := by
  simp only [stepFault, h]

theorem stepFault_of_reject {r : Reject} (h : decode s.req = .error r) : stepFault s = some .rsvdNonzero := by
  simp only [stepFault, h]

/-- The error of a step is all that the step does (R90, R91). -/
theorem step_of_fault {c : ErrCode} (hs : s.inputsStable = true) (h : stepFault s = some c) : step s = raiseErr s c := by
  cases hd : decode s.req with
  | ok i =>
    rw [stepFault_of_decode hd] at h
    rw [step_of_decode hs hd, exec_of_fault h]
  | error r =>
    cases (stepFault_of_reject hd).symm.trans h
    exact step_of_reject hs hd

/-- A step without an error runs what the word decodes to, and that answers with ERR = 0. -/
theorem step_succeeds (hs : s.inputsStable = true) (h : stepFault s = none) :
    ∃ t, step s = .next t ∧ ∃ i, decode s.req = .ok i ∧ exec i s = .next t ∧ rspErr t.rsp = false := by
  cases hd : decode s.req with
  | ok i =>
    obtain ⟨t, hexec, hok⟩ := exec_succeeds ((stepFault_of_decode hd).symm.trans h)
    exact ⟨t, (step_of_decode hs hd).trans hexec, i, rfl, hexec, hok⟩
  | error r => cases (stepFault_of_reject hd).symm.trans h

/-- The error of a step is its response, with no BUF read and the environment's state unchanged. -/
theorem step_answers_fault {c : ErrCode} (hs : s.inputsStable = true) (h : stepFault s = some c) :
    ∃ t, step s = .next t ∧ t.rsp = errRsp c ∧ NoRead t ∧ EnvKept s t :=
  step_of_fault hs h ▸ raiseErr_answers s c

end

/-- Settles O17: the step has an error, since without one ERR is 0, and then it is the step that raises it. -/
theorem anErrorIsOnlyItsResponse : Obligations.AnErrorIsOnlyItsResponse := by
  intro s t hs hstep herr
  cases hf : stepFault s with
  | none =>
    obtain ⟨t', hstep', -, -, -, hok⟩ := step_succeeds hs hf
    cases hstep.symm.trans hstep'
    exact absurd herr (by simp [hok])
  | some c =>
    obtain ⟨t', hstep', hrsp, hunread, hkept⟩ := step_answers_fault hs hf
    cases hstep.symm.trans hstep'
    have hcode : 1 ≤ c.ecode.toNat ∧ c.ecode.toNat ≤ 4 := by cases c <;> decide
    exact ⟨⟨c, issuerFault_of_rsp hrsp, hcode.1, hcode.2, hrsp ▸ errRsp_toNat c⟩, hunread, hkept⟩

/-! ## The checks of R98 on the request word -/

/-- The word with OP 111 decodes, and every other word does when its reserved bits are zero (R56, R57). -/
theorem decode_eq_decodeFields {w : Word}
    (h : w.toNat / 2 ^ 29 = 7 ∨ w &&& reservedBits (w.toNat / 2 ^ 29) = 0) : decode w = .ok (decodeFields w) := by
  refine (decode_ok_iff ..).2 ⟨?_, rfl⟩
  by_cases hop : (opField w).toNat = 7
  · simp [rsvdMask, hop]
  · rw [rsvdMask_eq_reservedBits hop, opField_toNat]
    exact h.resolve_left (opField_toNat w ▸ hop)

/-- The error of a step is that of the first check that fails in the order of R98. -/
theorem stepFault_eq (s : State) : stepFault s =
    if s.req.toNat / 2 ^ 29 = 7 then some .illegalOp
    else if s.req &&& reservedBits (s.req.toNat / 2 ^ 29) ≠ 0 then some .rsvdNonzero
    else if (s.req.toNat / 2 ^ 29 = 0 ∨ s.req.toNat / 2 ^ 29 = 5 ∨ s.req.toNat / 2 ^ 29 = 6) ∧ 40960 < s.len.toNat then
      some .lenRange
    else if s.req.toNat / 2 ^ 29 = 3 ∧ 16 < s.req.toNat / 2 ^ 16 % 2 ^ 5 + s.req.toNat / 2 ^ 24 % 2 ^ 5 then
      some .extrRange
    else none := by
  by_cases hop : s.req.toNat / 2 ^ 29 = 7
  · rw [stepFault_of_decode (decode_eq_decodeFields (.inl hop)), if_pos hop, decodeFields, opField_toNat, hop]
    rfl
  by_cases hbits : s.req &&& reservedBits (s.req.toNat / 2 ^ 29) = 0
  · rw [stepFault_of_decode (decode_eq_decodeFields (.inr hbits)), if_neg hop, if_neg (not_not.2 hbits), decodeFields,
      opField_toNat]
    have hlegal : s.req.toNat / 2 ^ 29 < 7 := by omega
    interval_cases s.req.toNat / 2 ^ 29 <;>
      simp [instrFault, lenFault_eq, BitVec.extractLsb'_toNat, Nat.shiftRight_eq_div_pow]
  · rw [stepFault_of_reject (decode_of_reservedBits hop hbits), if_neg hop, if_pos hbits]

/-- Settles O15: by the first check of R98 that fails, and then by the operation's rule. -/
theorem firstFailingCheckIsReported : Obligations.FirstFailingCheckIsReported := by
  intro s hs op
  have reported {c : ErrCode} (h : stepFault s = some c) : ∃ t, step s = .next t ∧ t.rsp = errRsp c := by
    obtain ⟨t, hstep, hrsp, -⟩ := step_answers_fault hs h
    exact ⟨t, hstep, hrsp⟩
  have checks := stepFault_eq s
  simp only [← errRsp_illegalOp, ← errRsp_rsvdNonzero, ← errRsp_lenRange, ← errRsp_extrRange]
  split_ifs at checks ⊢
  · exact reported checks
  · exact reported checks
  · exact reported checks
  · exact reported checks
  · exact step_succeeds hs checks

/-- Settles O11: the reserved row's meaning is Err(1), and the first check of R98 finds every word with OP 111. -/
theorem op111AnswersErrOne : Obligations.Op111AnswersErrOne := by
  rw [Obligations.Op111AnswersErrOne, ← errRsp_illegalOp]
  exact ⟨fun _ _ => answersUnread_of_raiseErr rfl,
    fun s hs hop => step_answers_fault hs ((stepFault_eq s).trans (if_pos hop))⟩

end Sys2Proof.Machine
end

section
/-! The request encoding (spec/30_encoding.md): a row of the opcode table as a condition on OP and the reserved bits, the
fields of an encoded word, and a word put together again from its fields. The statements on R46, R55, R58 and R59 follow. -/

namespace Sys2Proof

/-! ## The rows by OP -/

/-- The OP of an instruction (R47). -/
def Instr.op : Instr → BitVec 3
  | .quint _ => 0
  | .bitpos _ => 1
  | .comb _ _ => 2
  | .extr _ _ _ => 3
  | .alpha _ => 4
  | .fmt _ _ => 5
  | .olen _ => 6
  | .reservedOp111 _ => 7

theorem row_mask (i : Instr) : i.row.mask = 0xE0000000#32 ||| rsvdMask i.op := by
  cases i <;> simp [Instr.row, Instr.op, rsvdMask]

theorem row_pattern (i : Instr) : i.row.pattern = place 32 i.op 29 := by
  cases i <;> simp [Instr.row, Instr.op, place]

theorem opcodeRows_getElem? (i : Instr) : opcodeRows[i.op.toNat]? = some i.row := by
  cases i <;> rfl

theorem mnemonic_ne_reserved_iff (i : Instr) : i.row.mnemonic ≠ "reserved_OP_111" ↔ i.op ≠ 7 := by
  cases i <;> simp [Instr.row, Instr.op]

theorem op_eq_seven_iff (i : Instr) : i.op = 7 ↔ ∃ rest, i = .reservedOp111 rest := by
  cases i <;> simp [Instr.op]

theorem row_mem_opcodeRows (i : Instr) : i.row ∈ opcodeRows := List.mem_of_getElem? (opcodeRows_getElem? i)

theorem exists_row_of_mem {r : OpcodeRow} (h : r ∈ opcodeRows) : ∃ i : Instr, i.row = r := by
  simp only [opcodeRows, List.cons_append, List.nil_append, List.mem_cons, List.not_mem_nil, or_false] at h
  obtain h | h | h | h | h | h | h | h := h <;> exact ⟨_, h.symm⟩

theorem row_eq_of_op_eq {i j : Instr} (h : i.op = j.op) : i.row = j.row :=
  Option.some.inj ((opcodeRows_getElem? i).symm.trans (h ▸ opcodeRows_getElem? j))

/-- A decoded instruction is of the operation that OP names (R46). -/
theorem decodeFields_op (w : Word) : (decodeFields w).op = opField w := by
  rcases opField_cases w with h | h | h | h | h | h | h | h <;> rw [decodeFields, h] <;> rfl

/-! ## Fields at their places -/

/-- Bit `j` of a placed field is bit `j - lo` of the field. -/
theorem getLsbD_place {n k : Nat} (x : BitVec k) (lo : Nat) {j : Nat} (hj : j < n) :
    (place n x lo).getLsbD j = (decide (lo ≤ j) && x.getLsbD (j - lo)) := by
  have hin : j - lo < n := by omega
  rw [place, BitVec.getLsbD_shiftLeft, BitVec.getLsbD_setWidth]
  by_cases hlo : lo ≤ j <;> simp [hj, hin, hlo]

theorem extractLsb'_place_self {n k : Nat} (x : BitVec k) (lo : Nat) (h : lo + k ≤ n) :
    (place n x lo).extractLsb' lo k = x := by
  apply BitVec.eq_of_getLsbD_eq
  intro j hj
  rw [BitVec.getLsbD_extractLsb', getLsbD_place x lo (by omega)]
  simp [hj]

theorem extractLsb'_place_of_disjoint {n k lo' k' : Nat} (x : BitVec k) (lo : Nat) (hn : lo' + k' ≤ n)
    (h : lo + k ≤ lo' ∨ lo' + k' ≤ lo) : (place n x lo).extractLsb' lo' k' = 0 := by
  apply BitVec.eq_of_getLsbD_eq
  intro j hj
  rw [BitVec.getLsbD_extractLsb', getLsbD_place x lo (by omega)]
  rcases h with h | h
  · have habove : x.getLsbD (lo' + j - lo) = false := BitVec.getLsbD_of_ge _ _ (by omega)
    simp [habove]
  · have hbelow : ¬lo ≤ lo' + j := by omega
    simp [hbelow]

/-- A field of a word, put back at its place, is the word masked to that field. -/
theorem place_extractLsb' (w : Word) (lo k : Nat) :
    place 32 (w.extractLsb' lo k) lo = w &&& place 32 (BitVec.allOnes k) lo := by
  apply BitVec.eq_of_getLsbD_eq
  intro j hj
  rw [BitVec.getLsbD_and, getLsbD_place _ lo hj, getLsbD_place _ lo hj, BitVec.getLsbD_extractLsb',
    BitVec.getLsbD_allOnes]
  by_cases hlo : lo ≤ j
  · simp [hlo, Bool.and_comm]
  · simp [hlo]

theorem ofBool_getLsbD (w : Word) (j : Nat) : BitVec.ofBool (w.getLsbD j) = w.extractLsb' j 1 := by
  apply BitVec.eq_of_getLsbD_eq
  intro l hl
  obtain rfl : l = 0 := by omega
  simp

/-! ## A row's condition -/

/-- A pattern that is zero in a part of the mask asks for zeros there, and is matched by the rest. -/
theorem and_or_eq_iff {w a b p : Word} (hp : p &&& b = 0) : w &&& (a ||| b) = p ↔ w &&& a = p ∧ w &&& b = 0 := by
  rw [BitVec.and_or_distrib_left]
  refine ⟨fun h => ?_, fun ⟨ha, hb⟩ => by simp [ha, hb]⟩
  have hb : w &&& b = 0 := by
    calc w &&& b = ((w &&& a) ||| (w &&& b)) &&& b := by ext j; grind
      _ = 0 := by rw [h, hp]
  exact ⟨by simpa [hb] using h, hb⟩

theorem opField_place (w : Word) : place 32 (opField w) 29 = w &&& 0xE0000000#32 := place_extractLsb' w 29 3

theorem place_op_inj {op op' : BitVec 3} : place 32 op 29 = place 32 op' 29 ↔ op = op' := by
  refine ⟨fun h => ?_, fun h => by rw [h]⟩
  rw [← extractLsb'_place_self (n := 32) op 29 (by decide), h, extractLsb'_place_self op' 29 (by decide)]

theorem place_op_and_rsvdMask : ∀ op : BitVec 3, place 32 op 29 &&& rsvdMask op = 0 := by
  decide

/-- The bits that a row fixes are OP and the reserved bits of that OP (R57, R59). -/
theorem matches_row_iff (w : Word) (i : Instr) :
    w &&& i.row.mask = i.row.pattern ↔ opField w = i.op ∧ w &&& rsvdMask i.op = 0 := by
  rw [row_mask, row_pattern, and_or_eq_iff (place_op_and_rsvdMask i.op), ← opField_place, place_op_inj]

/-- A word decodes to an instruction of a row exactly when it matches the row (R59). -/
theorem decode_row_iff (w : Word) (i : Instr) :
    (∃ j, decode w = .ok j ∧ j.row = i.row) ↔ w &&& i.row.mask = i.row.pattern := by
  rw [matches_row_iff]
  constructor
  · rintro ⟨j, hj, hrow⟩
    obtain ⟨hbits, rfl⟩ := (decode_ok_iff ..).1 hj
    rw [← matches_row_iff, ← hrow, matches_row_iff, decodeFields_op]
    exact ⟨rfl, hbits⟩
  · rintro ⟨hop, hbits⟩
    exact ⟨_, (decode_ok_iff ..).2 ⟨hop ▸ hbits, rfl⟩, row_eq_of_op_eq ((decodeFields_op w).trans hop)⟩

/-! ## Decode and encode -/

/-- Every instruction's word lies in its row, and its operands fit their fields. -/
theorem encode_in_row (i : Instr) : encode i &&& i.row.mask = i.row.pattern ∧ i.wf = true := by
  cases i with
  | quint idx => exact Laws.EncodeInRow.quint idx
  | bitpos idx => exact Laws.EncodeInRow.bitpos idx
  | comb lead trail => exact Laws.EncodeInRow.comb lead trail
  | extr cnt ofs src => exact Laws.EncodeInRow.extr cnt ofs src
  | alpha val => exact Laws.EncodeInRow.alpha val
  | fmt idx pad => exact Laws.EncodeInRow.fmt idx pad
  | olen pad => exact Laws.EncodeInRow.olen pad
  | reservedOp111 rest => exact Laws.EncodeInRow.reservedOp111 rest

/-- Each operand is read back from its bits of the encoded word. -/
theorem decode_encode (i : Instr) : decode (encode i) = .ok i := by
  cases i with
  | fmt idx pad => exact Machine.decode_encode_fmt idx pad
  | olen pad => exact Machine.decode_encode_olen pad
  | _ =>
    obtain ⟨hop, hbits⟩ := (matches_row_iff ..).1 (encode_in_row _).1
    rw [decode_ok_iff, hop, decodeFields, hop]
    refine ⟨hbits, ?_⟩
    simp (disch := decide) [encode, Instr.op, BitVec.extractLsb'_or, extractLsb'_place_self,
      extractLsb'_place_of_disjoint]

theorem eq_and_not_of_and_eq_zero {w m : Word} (h : w &&& m = 0) : w = w &&& ~~~m := by
  calc w = (w &&& m) ||| (w &&& ~~~m) := by
        rw [← BitVec.and_or_distrib_left, BitVec.or_not_self, BitVec.and_allOnes]
    _ = w &&& ~~~m := by rw [h]; simp

/-- A word whose reserved bits are zero is the encoding of its fields: the masks of OP and of the fields, closed
numbers in each row, are all the bits that are not reserved. -/
theorem encode_decodeFields {w : Word} (h : w &&& rsvdMask (opField w) = 0) : encode (decodeFields w) = w := by
  have whole := eq_and_not_of_and_eq_zero h
  have top := opField_place w
  rcases opField_cases w with hop | hop | hop | hop | hop | hop | hop | hop <;>
  · rw [hop] at whole top
    simp only [BitVec.ofNat_eq_ofNat] at top
    simp only [decodeFields, hop, BitVec.ofNat_eq_ofNat, BitVec.reduceToNat, encode, top, ofBool_getLsbD,
      place_extractLsb', ← BitVec.and_or_distrib_left]
    exact whole.symm

/-- Settles O3: the fields of an encoded word are its operands, and the fields of a word whose reserved bits are zero make up
the word. -/
theorem decodeEncodeAgree : Obligations.DecodeEncodeAgree := by
  refine ⟨fun i _ => decode_encode i, fun w i h => ?_⟩
  obtain ⟨hbits, rfl⟩ := (decode_ok_iff ..).1 h
  exact ⟨(encode_in_row _).2, encode_decodeFields hbits⟩

/-! ## Which words are requests -/

/-- A word with a legal OP that matches no legal row is refused. -/
theorem decode_of_no_legal_row {w : Word} (hop : opField w ≠ 7)
    (h : ∀ r ∈ opcodeRows, r.mnemonic ≠ "reserved_OP_111" → w &&& r.mask ≠ r.pattern) :
    decode w = .error .rsvdNonzero := by
  cases hd : decode w with
  | error r => cases r; rfl
  | ok i =>
    have hrow := (decode_row_iff w i).1 ⟨i, hd, rfl⟩
    have legal : i.op ≠ 7 := ((matches_row_iff w i).1 hrow).1 ▸ hop
    exact absurd hrow (h _ (row_mem_opcodeRows i) ((mnemonic_ne_reserved_iff i).2 legal))

/-- Settles O4: a row's condition is OP and its reserved bits; a word of no legal row is refused, unless OP is 111. -/
theorem opcodeRowsDecideDecoding : Obligations.OpcodeRowsDecideDecoding := by
  refine ⟨fun w r hr => ?_, fun w r r' hr hr' h h' => ?_, fun s hs hno => ?_⟩
  · obtain ⟨i, rfl⟩ := exists_row_of_mem hr
    exact decode_row_iff w i
  · obtain ⟨i, rfl⟩ := exists_row_of_mem hr
    obtain ⟨j, rfl⟩ := exists_row_of_mem hr'
    exact row_eq_of_op_eq (((matches_row_iff ..).1 h).1.symm.trans ((matches_row_iff ..).1 h').1)
  · by_cases hop : s.req.toNat / 2 ^ 29 = 7
    · obtain ⟨t, hstep, hrsp, -⟩ := Machine.op111AnswersErrOne.2 s hs hop
      exact ⟨t, hstep, by rw [if_pos hop, hrsp]⟩
    · have legal : opField s.req ≠ 7 := fun h => hop (by rw [← opField_toNat, h]; rfl)
      obtain ⟨t, hraise, hrsp, -⟩ := Machine.raiseErr_answers s .rsvdNonzero
      refine ⟨t, (Machine.step_of_reject hs (decode_of_no_legal_row legal hno)).trans hraise, ?_⟩
      rw [if_neg hop, hrsp, Machine.errRsp_rsvdNonzero]

theorem opField_eq_seven_iff (w : Word) : opField w = 7 ↔ w.toNat / 2 ^ 29 = 7 := by
  rw [← opField_toNat, ← BitVec.toNat_inj]
  rfl

theorem refused_iff (w : Word) : decode w = .error .rsvdNonzero ↔
    w.toNat / 2 ^ 29 ≠ 7 ∧ w &&& reservedBits (w.toNat / 2 ^ 29) ≠ 0 := by
  refine ⟨fun h => ?_, fun h => Machine.decode_of_reservedBits h.1 h.2⟩
  by_contra hcon
  have hok := Machine.decode_eq_decodeFields (w := w) (by tauto)
  cases h.symm.trans hok

/-- A word is a legal request of the operation that OP names when OP is not 111 and the reserved bits are zero. -/
theorem legal_iff (w : Word) :
    (∃ i, decode w = .ok i ∧ i.row.mnemonic ≠ "reserved_OP_111" ∧ opcodeRows[w.toNat / 2 ^ 29]? = some i.row) ↔
      w.toNat / 2 ^ 29 ≠ 7 ∧ w &&& reservedBits (w.toNat / 2 ^ 29) = 0 := by
  rw [Ne, ← opField_eq_seven_iff, ← opField_toNat]
  constructor
  · rintro ⟨i, hd, hrow, -⟩
    obtain ⟨hbits, rfl⟩ := (decode_ok_iff ..).1 hd
    rw [mnemonic_ne_reserved_iff, decodeFields_op] at hrow
    refine ⟨hrow, ?_⟩
    rwa [Machine.rsvdMask_eq_reservedBits fun h => hrow (BitVec.eq_of_toNat_eq h)] at hbits
  · rintro ⟨hop, hbits⟩
    refine ⟨_, Machine.decode_eq_decodeFields (.inr (opField_toNat w ▸ hbits)), ?_, ?_⟩
    · rwa [mnemonic_ne_reserved_iff, decodeFields_op]
    · rw [← decodeFields_op, opcodeRows_getElem?]

theorem illegal_iff (w : Word) : (∃ rest, decode w = .ok (.reservedOp111 rest)) ↔ w.toNat / 2 ^ 29 = 7 := by
  rw [← opField_eq_seven_iff]
  constructor
  · rintro ⟨rest, hd⟩
    rw [← decodeFields_op, ← ((decode_ok_iff ..).1 hd).2]
    rfl
  · intro hop
    obtain ⟨rest, hrest⟩ := (op_eq_seven_iff _).1 ((decodeFields_op w).trans hop)
    exact ⟨rest, hrest ▸ Machine.decode_eq_decodeFields (.inl ((opField_eq_seven_iff w).1 hop))⟩

/-- Settles O5: the three conditions on OP and the reserved bits exclude each other and leave no word out. -/
theorem everyWordIsOneOfThree : Obligations.EveryWordIsOneOfThree := by
  intro w
  simp only [legal_iff, illegal_iff, refused_iff]
  tauto

/-- Settles O6: by OP, each field is its bits of the word as a number. -/
theorem operandsAreRequestFields : Obligations.OperandsAreRequestFields := by
  intro w i h
  obtain ⟨-, rfl⟩ := (decode_ok_iff ..).1 h
  have hnum := (opField_toNat w).symm
  rcases opField_cases w with hop | hop | hop | hop | hop | hop | hop | hop <;>
  · rw [hop] at hnum
    simp only [decodeFields, hop, hnum, BitVec.ofNat_eq_ofNat, BitVec.reduceToNat]
    simp [BitVec.getLsbD, Nat.shiftRight_eq_div_pow, Nat.toNat_testBit]

end Sys2Proof
end

section
/-! QX-1's assembler (R63): over numbers, each line that passes is the word of the instruction it names; over text, the three
number forms and the comma-separated operands are read as written. -/

namespace Sys2Proof

/-! ## Lines and words -/

/-- An instruction's word is the number of its line, in the encoding column of R63. -/
theorem encode_toNat (i : Instr) : (encode i).toNat = i.asm.number := by
  cases i with
  | reservedOp111 rest =>
    simp (disch := decide) only [encode, Instr.asm, AsmLine.number, BitVec.toNat_or, Machine.place_toNat]
    exact Machine.shiftLeft_or_eq_add rest.isLt
  | _ =>
    simp (disch := decide) only [encode, Instr.asm, AsmLine.number, BitVec.toNat_or, Machine.place_toNat,
      Nat.shiftLeft_zero, BitVec.toNat_ofBool, BitVec.reduceToNat]

theorem assemble_asm (i : Instr) : assemble i.asm = some (encode i) := by
  have hwf : i.asm.wf = true := (encode_in_row i).2
  rw [assemble, if_pos hwf, ← encode_toNat, BitVec.ofNat_toNat, BitVec.setWidth_eq]

theorem exists_bool_toNat {n : Nat} (h : n ≤ 1) : ∃ b : Bool, b.toNat = n := by
  obtain rfl | rfl : n = 0 ∨ n = 1 := by omega
  · exact ⟨false, rfl⟩
  · exact ⟨true, rfl⟩

/-- Every line with a mnemonic that passes is the line of a legal instruction. -/
theorem exists_asm_eq {l : AsmLine} (h : l.wf = true) (hword : ∀ n, l ≠ .word n) :
    ∃ i : Instr, i.asm = l ∧ i.op ≠ 7 := by
  cases l <;> simp only [AsmLine.wf, Bool.and_eq_true, decide_eq_true_eq] at h
  case quint idx =>
    refine ⟨.quint (BitVec.ofNat 16 idx), ?_, nofun⟩
    simp (disch := omega) [Instr.asm, Nat.mod_eq_of_lt]
  case bitpos idx =>
    refine ⟨.bitpos (BitVec.ofNat 16 idx), ?_, nofun⟩
    simp (disch := omega) [Instr.asm, Nat.mod_eq_of_lt]
  case comb lead trail =>
    refine ⟨.comb (BitVec.ofNat 8 lead) (BitVec.ofNat 8 trail), ?_, nofun⟩
    simp (disch := omega) [Instr.asm, Nat.mod_eq_of_lt]
  case extr cnt ofs src =>
    refine ⟨.extr (BitVec.ofNat 5 cnt) (BitVec.ofNat 5 ofs) (BitVec.ofNat 16 src), ?_, nofun⟩
    simp (disch := omega) [Instr.asm, Nat.mod_eq_of_lt]
  case alpha v =>
    refine ⟨.alpha (BitVec.ofNat 5 v), ?_, nofun⟩
    simp (disch := omega) [Instr.asm, Nat.mod_eq_of_lt]
  case fmt idx pad =>
    obtain ⟨b, rfl⟩ := exists_bool_toNat h.2
    refine ⟨.fmt (BitVec.ofNat 16 idx) b, ?_, nofun⟩
    simp (disch := omega) [Instr.asm, Nat.mod_eq_of_lt]
  case olen pad =>
    obtain ⟨b, rfl⟩ := exists_bool_toNat h
    exact ⟨.olen b, rfl, nofun⟩
  case word n => exact absurd rfl (hword n)

end Sys2Proof

namespace Sys2Proof.Machine

/-! ## Numbers -/

/-- Digits are read as their value in the base, the first the most significant. -/
theorem readDigits_of_forall₂ {base : Nat} {ds : List Nat} {cs : List Char}
    (h : List.Forall₂ (fun c d => digitValue base c = some d) cs ds) (acc : Nat) :
    readDigits base acc cs = some (ds.foldl (fun v d => base * v + d) acc) := by
  induction h generalizing acc with
  | nil => rfl
  | cons hd _ ih =>
    simp only [readDigits, hd, List.foldl_cons, ih, Nat.mul_comm base]

/-- A hexadecimal digit has its value in either case. -/
theorem digitValue_hex {c : Char} {d : Nat} (hd : d < 16) (hc : c = Nat.digitChar d ∨ c = (Nat.digitChar d).toUpper) :
    digitValue 16 c = some d := by
  obtain rfl | rfl := hc
  · exact digitValue_digitChar le_rfl hd
  · interval_cases d <;> decide

theorem forall₂_digitValue_hex {ds : List Nat} {cs : List Char} (h : ∀ d ∈ ds, d < 16)
    (hw : List.Forall₂ (fun c d => c = Nat.digitChar d ∨ c = (Nat.digitChar d).toUpper) cs ds) :
    List.Forall₂ (fun c d => digitValue 16 c = some d) cs ds := by
  induction hw with
  | nil => exact .nil
  | cons hc _ ih => exact .cons (digitValue_hex (h _ (by simp)) hc) (ih fun d hd => h d (by simp [hd]))

theorem digitChar_ne_baseLetter {d : Nat} (hd : d < 10) : Nat.digitChar d ≠ 'x' ∧ Nat.digitChar d ≠ 'b' := by
  interval_cases d <;> decide

theorem readNumber_decimal {c : Char} {cs : List Char} (h : ∀ x ∈ cs, x ≠ 'x' ∧ x ≠ 'b') :
    readNumber (c :: cs) = readDigits 10 0 (c :: cs) := by
  unfold readNumber
  split
  next heq => cases heq
  next heq =>
    obtain ⟨-, rfl⟩ := List.cons.inj heq
    exact absurd rfl (h 'x' (by simp)).1
  next heq =>
    obtain ⟨-, rfl⟩ := List.cons.inj heq
    exact absurd rfl (h 'b' (by simp)).2
  next heq => rw [heq]

theorem digitValue_eq_none (base : Nat) {c : Char} (h : c = ',' ∨ isBlank c = true) : digitValue base c = none := by
  obtain rfl | rfl | rfl : c = ',' ∨ c = ' ' ∨ c = '\t' := by simpa [isBlank] using h
  · simp [digitValue]
  · simp [digitValue]
  · simp [digitValue]

theorem digit_unbroken {base d : Nat} {c : Char} (h : digitValue base c = some d) : c ≠ ',' ∧ isBlank c = false := by
  have not_break : ¬(c = ',' ∨ isBlank c = true) := fun hc => by simp [digitValue_eq_none base hc] at h
  simpa [not_or] using not_break

/-- Text without a comma or a blank. -/
def Unbroken (text : List Char) : Prop := ∀ c ∈ text, c ≠ ',' ∧ isBlank c = false

theorem unbroken_of_readDigits {base acc n : Nat} {cs : List Char} (h : readDigits base acc cs = some n) : Unbroken cs := by
  induction cs generalizing acc with
  | nil => exact nofun
  | cons c cs ih =>
    rw [readDigits] at h
    split at h
    next d hd => exact List.forall_mem_cons.2 ⟨digit_unbroken hd, ih h⟩
    next => cases h

theorem unbroken_of_readNumber {n : Nat} {text : List Char} (h : readNumber text = some n) : Unbroken text := by
  unfold readNumber at h
  split at h
  · cases h
  · exact List.forall_mem_cons.2 ⟨by decide, List.forall_mem_cons.2 ⟨by decide, unbroken_of_readDigits h⟩⟩
  · exact List.forall_mem_cons.2 ⟨by decide, List.forall_mem_cons.2 ⟨by decide, unbroken_of_readDigits h⟩⟩
  · exact unbroken_of_readDigits h

/-! ## Lines -/

theorem splitName_append {name rest : List Char} (hne : name ≠ []) (hname : ∀ c ∈ name, isBlank c = false) :
    splitName (name ++ ' ' :: rest) = (name, ' ' :: rest) := by
  have hspace : isBlank ' ' = true := rfl
  have start : (name ++ ' ' :: rest).dropWhile isBlank = name ++ ' ' :: rest := by
    obtain ⟨c, cs, rfl⟩ := List.exists_cons_of_ne_nil hne
    simp [hname c (by simp)]
  have inside : ∀ c ∈ name, (!isBlank c) = true := fun c hc => by simp [hname c hc]
  rw [splitName, start, List.takeWhile_append_of_pos inside, List.dropWhile_append_of_pos inside]
  simp [hspace]

theorem splitCommas_intercalate {texts : List (List Char)} (hne : texts ≠ []) (h : ∀ text ∈ texts, Unbroken text) :
    splitCommas (' ' :: List.intercalate [',', ' '] texts) = texts.map (' ' :: ·) := by
  induction texts with
  | nil => exact absurd rfl hne
  | cons text texts ih =>
    have hpiece : ∀ c ∈ ' ' :: text, c ≠ ',' :=
      List.forall_mem_cons.2 ⟨by decide, fun c hc => (h text (by simp) c hc).1⟩
    by_cases hlast : texts = []
    · rw [hlast, List.intercalate_singleton, splitCommas_of_no_comma hpiece, List.map_singleton]
    · have hrest := ih hlast fun t ht => h t (by simp [ht])
      have hcomma := splitCommas_append (' ' :: List.intercalate [',', ' '] texts) hpiece
      simpa [List.intercalate_cons_of_ne_nil hlast, hrest] using hcomma

theorem readNumbers_spaced {texts : List (List Char)} {operands : List Nat}
    (h : List.Forall₂ (fun text n => readNumber text = some n) texts operands) :
    readNumbers (texts.map (' ' :: ·)) = some operands := by
  induction h with
  | nil => rfl
  | cons hn _ ih =>
    have htrim := trimBlanks_space fun c hc => (unbroken_of_readNumber hn c hc).2
    simp only [List.map_cons, readNumbers, htrim, hn, ih]

/-- A mnemonic, a space and comma-separated numbers are read as the line that has those operands (R63). -/
theorem assembleText_written {name : List Char} {written : List (List Char)} {operands : List Nat} (hne : name ≠ [])
    (hname : ∀ c ∈ name, isBlank c = false) (hwritten : written ≠ [])
    (h : List.Forall₂ (fun text n => readNumber text = some n) written operands) :
    assembleText (name ++ ' ' :: List.intercalate [',', ' '] written) = (lineOf name operands).bind assemble := by
  have unbroken : ∀ text ∈ written, Unbroken text :=
    ((List.forall₂_and_left ..).1 (h.imp fun _ _ hn => ⟨unbroken_of_readNumber hn, hn⟩)).1
  rw [assembleText, readLine, splitName_append hne hname, splitCommas_intercalate hwritten unbroken, readNumbers_spaced h]
  cases hline : lineOf name operands <;> simp [hline]

/-- The line of a mnemonic with its operands, from R63's table. -/
theorem lineOf_mnemonic (a b c : Nat) : lineOf "QUINT".toList [a] = some (.quint a) ∧
    lineOf "BITPOS".toList [a] = some (.bitpos a) ∧
    lineOf "COMB".toList [a, b] = some (.comb a b) ∧ lineOf "EXTR".toList [a, b, c] = some (.extr a b c) ∧
    lineOf "ALPHA".toList [a] = some (.alpha a) ∧ lineOf "FMT".toList [a, b] = some (.fmt a b) ∧
    lineOf "OLEN".toList [a] = some (.olen a) ∧ lineOf ".word".toList [a] = some (.word a) := by
  simp [lineOf]

/-- The three number forms of R63. -/
theorem readNumber_forms {ds : List Nat} (hne : ds ≠ []) :
    ((∀ d ∈ ds, d < 10) → readNumber (ds.map Nat.digitChar) = some (ds.foldl (fun v d => 10 * v + d) 0)) ∧
    ((∀ d ∈ ds, d < 16) → ∀ written : List Char,
      List.Forall₂ (fun c d => c = Nat.digitChar d ∨ c = (Nat.digitChar d).toUpper) written ds →
      readNumber ('0' :: 'x' :: written) = some (ds.foldl (fun v d => 16 * v + d) 0)) ∧
    ((∀ d ∈ ds, d < 2) →
      readNumber ('0' :: 'b' :: ds.map Nat.digitChar) = some (ds.foldl (fun v d => 2 * v + d) 0)) := by
  obtain ⟨d, ds, rfl⟩ := List.exists_cons_of_ne_nil hne
  refine ⟨fun h => ?_, fun h written hw => ?_, fun h => ?_⟩
  · rw [← readDigits_map_digitChar (by decide) _ h]
    refine readNumber_decimal fun x hx => ?_
    obtain ⟨e, he, rfl⟩ := List.mem_map.1 hx
    exact digitChar_ne_baseLetter (h e (by simp [he]))
  · have digits := forall₂_digitValue_hex h hw
    cases hw with
    | cons hc hcs => exact readDigits_of_forall₂ digits 0
  · exact readDigits_map_digitChar (by decide) _ h 0

/-- Settles O7: over numbers by the line's instruction, over text by the number forms and the pieces between commas. -/
theorem assemblerMakesLegalRequests : Obligations.AssemblerMakesLegalRequests := by
  refine ⟨fun l h => by simp [assemble, h], fun l h hword => ?_, fun w => ?_, fun _ => readNumber_forms,
    fun _ _ _ => assembleText_written, lineOf_mnemonic⟩
  · obtain ⟨i, rfl, hop⟩ := exists_asm_eq h hword
    exact ⟨i, encode i, rfl, assemble_asm i, encode_toNat i, rfl, decode_encode i, (mnemonic_ne_reserved_iff i).2 hop⟩
  · simp [assemble, AsmLine.wf, AsmLine.number, w.isLt]

/-- Settles O8: each line is closed, so the assembler is run on it. -/
theorem exampleLinesAssemble : Obligations.ExampleLinesAssemble := by
  unfold Obligations.ExampleLinesAssemble
  decide

/-- Settles O2: each word is closed, so the decoder is run on it. -/
theorem sampleWordsDecode : Obligations.SampleWordsDecode := by
  unfold Obligations.SampleWordsDecode
  decide

/-- Settles O1: with stable inputs a step is `exec` of the decoded request. -/
theorem stepRunsDecodedRequest : Obligations.StepRunsDecodedRequest := fun _ _ => step_of_decode

end Sys2Proof.Machine
end

section
/-! What every evaluation gives (R28, R62): a response of R62's shape and ports that read the input only. It is said once of
each shared operation, of each instruction and of a step; the invariant and the statements on R28 and R62 follow. -/

namespace Sys2Proof.Machine

/-! ## Shapes and ports -/

theorem rspShape_resultRsp {v padch : Bool} {data : BitVec 24} (hpad : padch = true → v = true)
    (hdata : v = false → data = 0) : RspShape (resultRsp v padch data) := by
  refine ⟨fun h => ?_, fun _ => rspEcode_resultRsp .., rspZero_resultRsp .., fun h => ?_, fun h _ => ?_⟩
  · simp at h
  · rw [rspPadch_resultRsp] at h
    rw [rspV_resultRsp, hpad h]
  · rw [rspV_resultRsp] at h
    rw [rspData_resultRsp, hdata h]

theorem rspShape_errRsp (c : ErrCode) : RspShape (errRsp c) := by
  unfold RspShape
  cases c <;> decide

theorem rspPadch_errRsp (c : ErrCode) : rspPadch (errRsp c) = false := rspPadch_packRsp ..

theorem portOk_of_disabled {s : State} {p : ReadPort} (h : p.re = false) : PortOk s p := fun hre => by simp [h] at hre

/-- A driven port reads below LEN, and LEN is at most N_MAX (R28). -/
theorem portOk_drivenPort {s : State} (h : s.len.toNat ≤ Config.nMax) {used : Bool} {a : Nat} {idle : ReadPort}
    (hi : idle.re = false) : PortOk s (drivenPort s used a idle) := by
  cases hu : readEnable s used a with
  | false =>
    rw [drivenPort_of_disabled idle hu]
    exact portOk_of_disabled hi
  | true =>
    have ha : a < s.len.toNat := (readEnable_eq_true.1 hu).2
    have hmax : a < 40960 := ha.trans_le h
    have hra : (BitVec.ofNat 16 a).toNat = a := Nat.mod_eq_of_lt (by omega)
    rw [drivenPort_of_enabled idle hu]
    intro _
    rw [hra]
    exact ⟨ha, by omega, rfl⟩

/-! ## What an evaluation gives -/

/-- An evaluation of `s` that answers with a shape of R62 and reads the input only; a pad is answered only if `mayPad`. -/
def AnswersProperly (mayPad : Prop) (s : State) (r : Result) : Prop :=
  ∃ p0 p1 w, r = .next (s.settle p0 p1 w) ∧ RspShape w ∧ (rspPadch w = true → mayPad) ∧ PortOk s p0 ∧ PortOk s p1

section
variable {mayPad : Prop} {s : State}

theorem answersProperly_respondReading {p0 p1 : ReadPort} {v : Bool} {data : BitVec 24} (h0 : PortOk s p0)
    (h1 : PortOk s p1) (hdata : v = false → data = 0) : AnswersProperly mayPad s (respondReading s p0 p1 v false data) :=
  ⟨_, _, _, rfl, rspShape_resultRsp nofun hdata, fun h => by simp at h, h0, h1⟩

theorem answersProperly_respond {v : Bool} {data : BitVec 24} (hdata : v = false → data = 0) :
    AnswersProperly mayPad s (respond s v false data) :=
  answersProperly_respondReading (portOk_of_disabled rfl) (portOk_of_disabled rfl) hdata

theorem answersProperly_respond_pad (h : mayPad) (data : BitVec 24) :
    AnswersProperly mayPad s (respond s true true data) :=
  ⟨_, _, _, rfl, rspShape_resultRsp (fun _ => rfl) nofun, fun _ => h, portOk_of_disabled rfl, portOk_of_disabled rfl⟩

theorem answersProperly_raiseErr (c : ErrCode) : AnswersProperly mayPad s (raiseErr s c) :=
  ⟨_, _, _, rfl, rspShape_errRsp c, fun h => by simp [rspPadch_errRsp] at h, portOk_of_disabled rfl,
    portOk_of_disabled rfl⟩

theorem answersProperly_checkLen {k : Result} (h : s.len.toNat ≤ Config.nMax → AnswersProperly mayPad s k) :
    AnswersProperly mayPad s (checkLen s k) := by
  rcases Nat.lt_or_ge Config.nMax s.len.toNat with hl | hl
  · rw [checkLen_of_gt hl]
    exact answersProperly_raiseErr _
  · rw [checkLen_of_le hl]
    exact h hl

/-- The ports of a quintet read the input, so a continuation that answers properly from such ports does. -/
theorem answersProperly_withQuintetPorts (h : s.len.toNat ≤ Config.nMax) {q : Nat} {k : ReadPort → ReadPort → Result}
    (hk : ∀ p0 p1, PortOk s p0 → PortOk s p1 → AnswersProperly mayPad s (k p0 p1)) :
    AnswersProperly mayPad s (withQuintetPorts s q k) := by
  rw [withQuintetPorts_eq h]
  exact hk _ _ (portOk_drivenPort h rfl) (portOk_drivenPort h rfl)

end

/-- Every instruction answers properly, and only FMT answers a pad. -/
theorem exec_answersProperly (i : Instr) (s : State) : AnswersProperly (∃ idx pad, i = .fmt idx pad) s (exec i s) := by
  cases i with
  | quint idx =>
    refine answersProperly_checkLen fun h => answersProperly_withQuintetPorts h fun p0 p1 h0 h1 => ?_
    split
    · exact answersProperly_respondReading h0 h1 nofun
    · exact answersProperly_respondReading h0 h1 fun _ => rfl
  | bitpos idx => exact answersProperly_respond nofun
  | comb lead trail => exact answersProperly_respond nofun
  | extr cnt ofs src =>
    rw [exec, execExtr]
    split
    · exact answersProperly_raiseErr _
    · exact answersProperly_respond nofun
  | alpha val => exact answersProperly_respond nofun
  | fmt idx pad =>
    refine answersProperly_checkLen fun h => ?_
    split
    · exact answersProperly_withQuintetPorts h fun p0 p1 h0 h1 => answersProperly_respondReading h0 h1 nofun
    · split
      · exact answersProperly_respond_pad ⟨idx, pad, rfl⟩ _
      · exact answersProperly_respond fun _ => rfl
  | olen pad => exact answersProperly_checkLen fun _ => answersProperly_respond nofun
  | reservedOp111 rest => exact answersProperly_raiseErr _

theorem step_answersProperly {s : State} (hs : s.inputsStable = true) :
    AnswersProperly (∃ idx pad, decode s.req = .ok (.fmt idx pad)) s (step s) := by
  cases hd : decode s.req with
  | ok i =>
    rw [step_of_decode hs hd]
    simpa only [Except.ok.injEq] using exec_answersProperly i s
  | error r =>
    rw [step_of_reject hs hd]
    exact answersProperly_raiseErr _

/-- Settles O10: R62's shape of every answer; its V is 1 with a pad by that shape. -/
theorem everyResponseHasItsShape : Obligations.EveryResponseHasItsShape := by
  intro s hs
  obtain ⟨p0, p1, w, hstep, hshape, hpad, -, -⟩ := step_answersProperly hs
  have ⟨_, _, _, hv, _⟩ := hshape
  exact ⟨_, hstep, hshape, fun h => ⟨hv h, hpad h⟩⟩

/-- Settles O47: a step's ports read the input, and the state after it holds the same input. -/
theorem readsStayInsideTheInput : Obligations.ReadsStayInsideTheInput := by
  intro s hs
  obtain ⟨p0, p1, w, hstep, -, -, h0, h1⟩ := step_answersProperly hs
  exact ⟨_, hstep, h0, h1⟩

/-- Settles O50: a step leaves BUF as it is, and with stable inputs its response and its ports are new and proper. -/
theorem stepKeepsTheInvariant : Obligations.StepKeepsTheInvariant := by
  rintro s s' ⟨hbuf, -⟩ hstep
  by_cases hs : s.inputsStable = true
  · obtain ⟨p0, p1, w, hstep', hshape, -, h0, h1⟩ := step_answersProperly hs
    cases hstep.symm.trans hstep'
    exact ⟨hbuf, fun _ => ⟨hshape, h0, h1⟩⟩
  · obtain ⟨p0, p1, w, hstep'⟩ := step_settles s
    cases hstep.symm.trans hstep'
    exact ⟨hbuf, fun h => absurd h hs⟩

/-- Settles O51: BUF is empty, no port is enabled, and the response is the word 0. -/
theorem resetMeetsTheInvariant : Obligations.ResetMeetsTheInvariant := by
  refine ⟨reset_buf_wf, fun _ => ⟨?_, portOk_of_disabled rfl, portOk_of_disabled rfl⟩⟩
  have zero : State.reset.rsp = resultRsp false false 0 := by decide
  rw [zero]
  exact rspShape_resultRsp nofun fun _ => rfl

end Sys2Proof.Machine
end

section
/-! The frame of a request and what it depends on: the environment's state is left alone (R26, R30), an error changes nothing
for later requests (R100), BUF reaches a response through the window only (R17), and the ports follow the request (R19). -/

namespace Sys2Proof.Machine

/-! ## The frame -/

/-- An evaluation that settles leaves the environment's state alone. -/
theorem SettlesTo.envKept {s : State} {r : Result} (h : SettlesTo s r) : ∃ t, r = .next t ∧ EnvKept s t := by
  obtain ⟨p0, p1, w, rfl⟩ := h
  exact ⟨_, rfl, envKept_settle ..⟩

/-- Settles O48: every instruction and every step settles. -/
theorem requestsLeaveTheEnvironmentAlone : Obligations.RequestsLeaveTheEnvironmentAlone :=
  ⟨fun i s => (exec_settles i s).envKept, fun s => (step_settles s).envKept⟩

/-- Settles O53: the frame of every step, whether the inputs are stable or not. -/
theorem unstableInputsStillAnswer : Obligations.UnstableInputsStillAnswer := fun s _ => (step_settles s).envKept

/-! ## What a response depends on -/

/-- Settles O18: the state after an error differs from the one before in outputs that no request reads back. -/
theorem errorsAreNotSticky : Obligations.ErrorsAreNotSticky := by
  intro s t w hs hstep _
  obtain ⟨p0, p1, rsp, hstep'⟩ := step_settles s
  cases hstep.symm.trans hstep'
  exact sameAnswer_step rfl hs hs rfl fun _ _ _ _ _ => rfl

/-- The index of a QUINT or FMT request, from its word (R46, R48, R52). -/
theorem index_of_decode {w : Word} {idx : BitVec 16}
    (h : decode w = .ok (.quint idx) ∨ ∃ pad, decode w = .ok (.fmt idx pad)) :
    (w.toNat / 2 ^ 29 = 0 ∨ w.toNat / 2 ^ 29 = 5) ∧ idx.toNat = w.toNat % 2 ^ 16 := by
  obtain h | ⟨pad, h⟩ := h
  · obtain ⟨hop, hidx⟩ := operandsAreRequestFields w _ h
    exact ⟨.inl hop, hidx⟩
  · obtain ⟨hop, hidx, -⟩ := operandsAreRequestFields w _ h
    exact ⟨.inr hop, hidx⟩

/-- Settles O45: the window of the index in the request word holds the same bytes. -/
theorem onlyTheWindowBytesReachAResponse : Obligations.OnlyTheWindowBytesReachAResponse := by
  intro s s' hs hs' hreq hlen hbytes
  have window : ∀ idx, (decode s.req = .ok (.quint idx) ∨ ∃ pad, decode s.req = .ok (.fmt idx pad)) →
      SameWindow s s' idx.toNat := by
    intro idx hd a ha hwindow
    obtain ⟨hop, hidx⟩ := index_of_decode hd
    rw [primaryIndex_eq, secondaryIndex_eq, hidx] at hwindow
    exact hbytes a ha hop hwindow
  obtain ⟨t, t', hstep, hstep', hrsp, -⟩ := sameAnswer_step hlen hs hs' hreq window
  exact ⟨t, t', hstep, hstep', hrsp⟩

/-- Settles O52: QUINT 0 of the empty input answers the word 0 and reads nothing, as the power-up state shows. -/
theorem resetOutputsFollowTheInputs : Obligations.ResetOutputsFollowTheInputs :=
  ⟨_, rfl, by decide, rfl, rfl, nofun, nofun⟩

/-! ## The read ports -/

section
variable {s : State}

/-- The enables and addresses of a quintet's ports in the spec's arithmetic (R19). -/
theorem quintetPorts_follow (s : State) (q : Nat) :
    ((quintetPort0 s q).re = true ↔ 5 * q / 8 < s.len.toNat) ∧
      ((quintetPort0 s q).re = true → (quintetPort0 s q).ra.toNat = 5 * q / 8) ∧
      ((quintetPort1 s q).re = true ↔ 3 < 5 * q % 8 ∧ 5 * q / 8 + 1 < s.len.toNat) ∧
      ((quintetPort1 s q).re = true → (quintetPort1 s q).ra.toNat = 5 * q / 8 + 1) := by
  have hlen := s.len.isLt
  refine ⟨quintetPort0_re_eq_true, fun h => ?_, ?_, fun h => ?_⟩
  · have hp := quintetPort0_re_eq_true.1 h
    rw [quintetPort0_of_enabled h]
    exact Nat.mod_eq_of_lt (hp.trans hlen)
  · rw [quintetPort1_re_eq_true, spans_eq_true, secondaryIndex_eq]
  · have hp := (quintetPort1_re_eq_true.1 h).2
    rw [quintetPort1_of_enabled h]
    exact Nat.mod_eq_of_lt (hp.trans hlen)

theorem checkLen_noRead {k : Result} (h : s.len.toNat ≤ Config.nMax → ∃ t, k = .next t ∧ NoRead t) :
    ∃ t, checkLen s k = .next t ∧ NoRead t := by
  rcases Nat.lt_or_ge Config.nMax s.len.toNat with hl | hl
  · rw [checkLen_of_gt hl]
    exact ⟨_, rfl, rfl, rfl⟩
  · rw [checkLen_of_le hl]
    exact h hl

/-- Only QUINT, and FMT below QCNT, enable a port (R19). -/
theorem exec_noRead {i : Instr} (hquint : ∀ idx, i ≠ .quint idx)
    (hfmt : ∀ idx pad, i = .fmt idx pad → qcnt s.len.toNat ≤ idx.toNat) : ∃ t, exec i s = .next t ∧ NoRead t := by
  cases i with
  | quint idx => exact absurd rfl (hquint idx)
  | bitpos idx => exact ⟨_, rfl, rfl, rfl⟩
  | comb lead trail => exact ⟨_, rfl, rfl, rfl⟩
  | extr cnt ofs src =>
    rw [exec, execExtr]
    split <;> exact ⟨_, rfl, rfl, rfl⟩
  | alpha val => exact ⟨_, rfl, rfl, rfl⟩
  | fmt idx pad =>
    refine checkLen_noRead fun _ => ?_
    rw [if_neg (Nat.not_lt.2 (hfmt idx pad rfl))]
    split <;> exact ⟨_, rfl, rfl, rfl⟩
  | olen pad => exact checkLen_noRead fun _ => ⟨_, rfl, rfl, rfl⟩
  | reservedOp111 rest => exact ⟨_, rfl, rfl, rfl⟩

end

/-- Settles O46: QUINT and FMT below QCNT drive the quintet's ports; an error, and every other request, drives none. -/
theorem readPortsFollowTheRequest : Obligations.ReadPortsFollowTheRequest := by
  refine ⟨fun s idx hlen => ⟨_, execQuint_of_le hlen idx, quintetPorts_follow s idx.toNat⟩,
    fun s idx pad hlen hk => ⟨_, execFmt_of_lt hlen pad hk, quintetPorts_follow s idx.toNat⟩, fun s hs => ?_⟩
  cases hf : stepFault s with
  | some c =>
    obtain ⟨t, hstep, -, hunread, -⟩ := step_answers_fault hs hf
    exact ⟨t, hstep, fun _ => hunread⟩
  | none =>
    obtain ⟨t, hstep, i, hd, hexec, hok⟩ := step_succeeds hs hf
    refine ⟨t, hstep, fun h => ?_⟩
    obtain ⟨hquint, hfmt⟩ := h.resolve_left (by simp [hok])
    obtain ⟨t', hexec', hunread⟩ := exec_noRead (s := s) (fun idx hi => hquint idx (hi ▸ hd))
      (fun idx pad hi => hfmt idx pad (hi ▸ hd))
    cases hexec.symm.trans hexec'
    exact hunread

end Sys2Proof.Machine
end

section
/-! BUF as the environment sees it: a byte written is read back (R28, R41), and the canonical form has one list for each
contents. -/

namespace Sys2Proof.Machine

/-- Settles O54: by the laws of a write below 0xA000; above, neither access has a location. -/
theorem writtenBytesAreReadBack : Obligations.WrittenBytesAreReadBack := by
  refine ⟨fun s a v ha => ⟨_, if_pos ha, ?_, fun b hb => Memory.read_write_of_ne _ v hb, Memory.wf_write v ha, rfl, rfl,
    rfl⟩, fun s a v ha => ⟨if_neg (Nat.not_lt.2 ha), if_neg (Nat.not_lt.2 ha)⟩⟩
  rw [memRead_of_mapped ha, Memory.read_write_self]

/-- A canonical list from `k` up, taken apart: its first byte is no power-up byte, and the rest is canonical above it. -/
theorem Memory.wfFrom_cons_iff {lo k : Nat} {b : Byte} {m : Memory} : Memory.wfFrom lo ((k, b) :: m) = true ↔
    lo ≤ k ∧ k < Config.nMax ∧ b ≠ Config.powerUpByte k ∧ Memory.wfFrom (k + 1) m = true := by
  simp [Memory.wfFrom, and_assoc]

theorem Memory.read_cons_self (k : Nat) (b : Byte) (m : Memory) : Memory.read ((k, b) :: m) k = b := by
  simp [Memory.read, Memory.lookup]

theorem Memory.read_cons_of_ne {k a : Nat} (b : Byte) (m : Memory) (h : a ≠ k) :
    Memory.read ((k, b) :: m) a = Memory.read m a := by
  simp [Memory.read, Memory.lookup, h.symm]

/-- A canonical list from `lo` up says nothing of an address below `lo`, which reads as at power-up. -/
theorem Memory.read_of_lt_wfFrom {lo a : Nat} {m : Memory} (hm : m.wfFrom lo = true) (ha : a < lo) :
    m.read a = Config.powerUpByte a := by
  induction m generalizing lo with
  | nil => rfl
  | cons e m ih =>
    obtain ⟨k, b⟩ := e
    obtain ⟨hk, -, -, hrest⟩ := wfFrom_cons_iff.1 hm
    rw [read_cons_of_ne b m (by omega)]
    exact ih hrest (by omega)

/-- Where a canonical list has its first byte, no list that starts above reads the same. -/
theorem Memory.read_cons_ne {lo lo' k : Nat} {b : Byte} {m m' : Memory} (hm : Memory.wfFrom lo ((k, b) :: m) = true)
    (hm' : m'.wfFrom lo' = true) (hk : k < lo') : Memory.read ((k, b) :: m) k ≠ m'.read k := by
  obtain ⟨-, -, hb, -⟩ := wfFrom_cons_iff.1 hm
  rwa [read_cons_self, read_of_lt_wfFrom hm' hk]

/-- Canonical lists that read the same are the same: by their first addresses, which neither can have alone. -/
theorem Memory.eq_of_read_eq {lo : Nat} {m m' : Memory} (hm : m.wfFrom lo = true) (hm' : m'.wfFrom lo = true)
    (h : ∀ a, m.read a = m'.read a) : m = m' := by
  induction m generalizing lo m' with
  | nil =>
    cases m' with
    | nil => rfl
    | cons e m' => exact absurd (h e.1).symm (read_cons_ne hm' (lo' := e.1 + 1) rfl (by omega))
  | cons e m ih =>
    obtain ⟨k, b⟩ := e
    cases m' with
    | nil => exact absurd (h k) (read_cons_ne hm (lo' := k + 1) rfl (by omega))
    | cons e' m' =>
      obtain ⟨k', b'⟩ := e'
      obtain ⟨-, hk, hb, hrest⟩ := wfFrom_cons_iff.1 hm
      obtain ⟨-, hk', hb', hrest'⟩ := wfFrom_cons_iff.1 hm'
      rcases Nat.lt_trichotomy k k' with hlt | rfl | hgt
      · exact absurd (h k) (read_cons_ne hm (lo' := k') (wfFrom_cons_iff.2 ⟨le_rfl, hk', hb', hrest'⟩) hlt)
      · have hbytes : b = b' := by simpa only [read_cons_self] using h k
        have htails : ∀ a, Memory.read m a = Memory.read m' a := fun a => by
          rcases Nat.lt_or_ge k a with ha | ha
          · simpa only [read_cons_of_ne _ _ ha.ne'] using h a
          · have above : a < k + 1 := by omega
            rw [read_of_lt_wfFrom hrest above, read_of_lt_wfFrom hrest' above]
        rw [hbytes, ih hrest hrest' htails]
      · exact absurd (h k').symm (read_cons_ne hm' (lo' := k) (wfFrom_cons_iff.2 ⟨le_rfl, hk, hb, hrest⟩) hgt)

/-- Settles O55: no address below 0 is left out. -/
theorem equalContentsAreEqualMemories : Obligations.EqualContentsAreEqualMemories :=
  fun _ _ => Memory.eq_of_read_eq

end Sys2Proof.Machine
end

section
/-! The index arithmetic (R65 to R69), the source's path to a quintet (R74), and the responses of QUINT, FMT and OLEN within
N_MAX as facts about their fields (R77, R79, R99). -/

namespace Sys2Proof.Machine

/-! ## The descriptor -/

/-- For every index of a request the descriptor is the sum of its fields (R68, R70). -/
theorem descriptor_toNat_add {q : Nat} (h : q < 2 ^ 16) :
    (descriptor q).toNat =
      (11 - 5 * q % 8) * 2 ^ 20 + (5 * q % 8) * 2 ^ 17 + (if 3 < 5 * q % 8 then 1 else 0) * 2 ^ 16 + 5 * q / 8 := by
  have hspan : (if 3 < 5 * q % 8 then 1 else 0) ≤ 1 := by split <;> decide
  rw [descriptor_toNat h, Nat.or_assoc, Nat.or_assoc, shiftLeft_or_eq_add (k := 16) (by omega),
    shiftLeft_or_eq_add (k := 17) (by omega), shiftLeft_or_eq_add (by omega)]
  omega

theorem bitpos_data (s : State) (idx : BitVec 16) :
    ∃ t, exec (.bitpos idx) s = .next t ∧ rspData t.rsp = descriptor idx.toNat :=
  ⟨_, respond_eq .., rspData_resultRsp ..⟩

/-- Fields packed side by side are read back (R70). -/
theorem packed_fields {off start span p : Nat} (hstart : start < 2 ^ 3) (hspan : span ≤ 1) (hp : p < 2 ^ 16) :
    let packed := off * 2 ^ 20 + start * 2 ^ 17 + span * 2 ^ 16 + p
    packed % 2 ^ 16 = p ∧ packed / 2 ^ 17 % 2 ^ 3 = start ∧ packed / 2 ^ 20 = off := by
  intro packed
  omega

theorem streamBit_le (input : List Byte) (j : Nat) : streamBit input j ≤ 1 := by
  rw [streamBit]
  split
  · exact Nat.and_le_right
  · exact Nat.zero_le 1

theorem streamQuintet_le (input : List Byte) (q : Nat) : streamQuintet input q ≤ 31 := by
  have bit := streamBit_le input
  have := bit (5 * q)
  have := bit (5 * q + 1)
  have := bit (5 * q + 2)
  have := bit (5 * q + 3)
  have := bit (5 * q + 4)
  simp only [streamQuintet, Nat.shiftLeft_eq]
  omega

/-- Settles O19: the bounds are arithmetic, a quintet is five bits, and the descriptor's fields do not overlap. -/
theorem indexArithmeticIsExact : Obligations.IndexArithmeticIsExact := by
  refine ⟨fun q hq => ?_, fun n hn => ?_, streamQuintet_le, fun s idx => ?_⟩
  · rw [primaryIndex_eq, windowStart_eq, off16_eq]
    omega
  · rw [qcnt_eq]
    omega
  · obtain ⟨t, hexec, hdata⟩ := bitpos_data s idx
    have hidx := idx.isLt
    refine ⟨t, hexec, ?_⟩
    rw [hdata, descriptor_toNat_add hidx]
    exact packed_fields (by omega) (by split <;> decide) (by omega)

theorem descriptor_add_eight {q : Nat} (h : q + 8 < 2 ^ 16) :
    (descriptor (q + 8)).toNat = (descriptor q).toNat + 5 := by
  have hstart : 5 * (q + 8) % 8 = 5 * q % 8 := by omega
  rw [descriptor_toNat_add h, descriptor_toNat_add (by omega), hstart]
  omega

/-- Settles O20: the window start depends on `q % 8` alone, where the table is checked row by row, and 8 quintets are
5 bytes. -/
theorem descriptorRepeatsEveryEight : Obligations.DescriptorRepeatsEveryEight := by
  refine ⟨fun q => ?_, fun q => ?_, fun s idx hidx => ?_⟩
  · rw [primaryIndex_eq, primaryIndex_eq, windowStart_eq, windowStart_eq]
    omega
  · have hstart : 5 * q % 8 = 5 * (q % 8) % 8 := by omega
    have hprimary : 5 * q / 8 = 5 * (q / 8) + 5 * (q % 8) / 8 := by omega
    have hrow : q % 8 < 8 := by omega
    simp only [primaryIndex_eq, hprimary, spans, off16, off8, windowStart_eq, hstart]
    interval_cases q % 8 <;> simp
  · obtain ⟨t, hexec, hdata⟩ := bitpos_data s idx
    obtain ⟨t', hexec', hdata'⟩ := bitpos_data s (idx + 8)
    have hnext : (idx + 8).toNat = idx.toNat + 8 := BitVec.toNat_add_of_lt (by simp; omega)
    refine ⟨t, t', hexec, hexec', ?_⟩
    rw [hdata, hdata', hnext, descriptor_add_eight (by omega)]

/-! ## The source's path to a quintet -/

/-- A field above the lower byte of a window is a field of the leading byte. -/
theorem window_shiftRight (lead trail : Byte) {d : Nat} (h : 8 ≤ d) :
    ((lead.toNat <<< 8) ||| trail.toNat) >>> d = lead.toNat >>> (d - 8) := by
  have htrail := trail.isLt
  rw [shiftLeft_or_eq_add htrail, Nat.shiftRight_eq_div_pow, Nat.shiftRight_eq_div_pow]
  have hd : d = 8 + (d - 8) := by omega
  rw [hd, Nat.pow_add, ← Nat.div_div_eq_div_mul]
  congr 2 <;> omega

/-- The quintet of the ports is the EXTR field of COMB of the two zero-filled bytes, whether or not the window spans: without
a spanning window the field lies above the trailing byte (R65, R74). -/
theorem extractBits_combineBytes_byteAt (s : State) (q : Nat) :
    extractBits 5 (off16 q) (combineBytes (s.byteAt (primaryIndex q)) (s.byteAt (secondaryIndex q))) =
      (quintetValue q (quintetPort0 s q) (quintetPort1 s q)).setWidth 16 := by
  apply BitVec.eq_of_toNat_eq
  rw [extractBits_toNat _ _ (by decide), combineBytes_toNat_or, BitVec.toNat_setWidth_of_le (by decide),
    quintetValue_toNat, quintetPort0_byte, quintetPort1_byte, off16_eq]
  cases hspan : spans q with
  | true => rfl
  | false =>
    have hlow : 8 ≤ 11 - 5 * q % 8 := by
      have := spans_eq_false.1 hspan
      omega
    rw [window_shiftRight _ _ hlow, window_shiftRight _ _ hlow]
    rfl

/-- Below QCNT the DATA of QUINT is the quintet of its ports (R73). -/
theorem quint_rsp_of_lt {s : State} {idx : BitVec 16} (h : s.len.toNat ≤ Config.nMax) (hq : idx.toNat < qcnt s.len.toNat) :
    ∃ t, exec (.quint idx) s = .next t ∧ t.rsp = resultRsp true false
      ((quintetValue idx.toNat (quintetPort0 s idx.toNat) (quintetPort1 s idx.toNat)).setWidth 24) := by
  refine ⟨_, execQuint_of_le h idx, ?_⟩
  rw [State.settle_rsp, if_pos hq]

theorem comb_data (s : State) (lead trail : Byte) :
    ∃ t, exec (.comb lead trail) s = .next t ∧ (rspData t.rsp).setWidth 16 = combineBytes lead trail := by
  refine ⟨_, respond_eq .., ?_⟩
  rw [State.settle_rsp, rspData_resultRsp, BitVec.setWidth_setWidth_of_le _ (by decide), BitVec.setWidth_eq]

/-- EXTR of a field within its source answers the field (R72). -/
theorem extr_rsp {cnt ofs : BitVec 5} (h : ofs.toNat + cnt.toNat ≤ 16) (src : BitVec 16) (s : State) :
    ∃ t, exec (.extr cnt ofs src) s = .next t ∧
      t.rsp = resultRsp true false ((extractBits cnt.toNat ofs.toNat src).setWidth 24) :=
  ⟨_, if_neg (Nat.not_lt.2 h), rfl⟩

/-- Settles O26: BITPOS gives the offset and COMB the window from which EXTR takes the quintet of QUINT's ports. -/
theorem quintEqualsTheSourcePath : Obligations.QuintEqualsTheSourcePath := by
  intro s idx hlen hq
  have five : (5#5).toNat = 5 := rfl
  have hofs : (BitVec.ofNat 5 (off16 idx.toNat)).toNat = off16 idx.toNat :=
    Nat.mod_eq_of_lt (by rw [off16_eq]; omega)
  have hrange : (BitVec.ofNat 5 (off16 idx.toNat)).toNat + (5#5).toNat ≤ 16 := by
    rw [hofs, off16_eq, five]
    omega
  obtain ⟨tq, hquint, hqrsp⟩ := quint_rsp_of_lt hlen hq
  obtain ⟨tb, hbitpos, -, -, hoff⟩ := indexArithmeticIsExact.2.2.2 s idx
  obtain ⟨tc, hcomb, hwindow⟩ := comb_data s (s.byteAt (primaryIndex idx.toNat)) (s.byteAt (secondaryIndex idx.toNat))
  obtain ⟨te, hextr, hersp⟩ := extr_rsp hrange ((rspData tc.rsp).setWidth 16) s
  have data : (rspData tq.rsp).toNat =
      (quintetValue idx.toNat (quintetPort0 s idx.toNat) (quintetPort1 s idx.toNat)).toNat := by
    rw [hqrsp, rspData_resultRsp, BitVec.toNat_setWidth_of_le (by decide)]
  have path : te.rsp = tq.rsp := by
    rw [hersp, hqrsp, hwindow, hofs, five, extractBits_combineBytes_byteAt,
      BitVec.setWidth_setWidth (by decide)]
  refine ⟨tq, tb, tc, te, hquint, hbitpos, hcomb, ?_, path, ?_, ?_, fun hin => ?_⟩
  · rw [hoff]
    exact hextr
  · rw [hersp, rspErr_resultRsp]
  · rw [data, quintetValue_eq_streamQuintet]
  · have hlow : 11 - 5 * idx.toNat % 8 - 8 = 3 - 5 * idx.toNat % 8 := by omega
    rw [data, quintetValue_toNat, window_shiftRight _ _ (by omega), quintetPort0_byte, hlow, primaryIndex_eq]

/-! ## The final quintet -/

/-- The real bits of the final quintet (R69). -/
theorem finalQuintet_bits {n : Nat} (h : 0 < n) : 8 * n - 5 * (qcnt n - 1) = [5, 3, 1, 4, 2].getD (n % 5) 0 := by
  have hrow : n % 5 < 5 := by omega
  have hbits : 8 * n - 5 * (qcnt n - 1) = (8 * n + 4) % 5 + 1 := by
    rw [qcnt_eq]
    omega
  have hmod : (8 * n + 4) % 5 = (8 * (n % 5) + 4) % 5 := by omega
  rw [hbits, hmod]
  interval_cases n % 5 <;> rfl

/-- Below QCNT, the secondary byte of a spanning window is missing exactly for a final quintet that the input does not fill
(R69). -/
theorem secondary_missing_iff {n q : Nat} (h : q < qcnt n) :
    primaryIndex q + 1 = n ∧ spans q = true ↔ q + 1 = qcnt n ∧ 8 * n % 5 ≠ 0 := by
  rw [qcnt_eq] at h ⊢
  rw [spans_eq_true, primaryIndex_eq]
  refine ⟨fun ⟨hend, hspans⟩ => by omega, fun ⟨hlast, hrest⟩ => ?_⟩
  have hend : 5 * q / 8 + 1 = n := by omega
  exact ⟨hend, by omega⟩

/-- Settles O27: a quintet below QCNT begins in a real byte, and its ports are enabled for the real bytes only. -/
theorem onlyTheFinalQuintetIsFilled : Obligations.OnlyTheFinalQuintetIsFilled := by
  intro s idx hlen hq n q
  have primary : primaryIndex q < n := by
    have hq' := qcnt_eq n ▸ hq
    rw [primaryIndex_eq]
    omega
  have missing := secondary_missing_iff hq
  refine ⟨primary, missing, fun hlast hfull => ?_, finalQuintet_bits (by omega), _, execQuint_of_le hlen idx,
    quintetPort0_re_eq_true.2 primary, fun hspans => ?_⟩
  · rw [qcnt_eq] at hlast
    rw [spans_eq_false]
    omega
  · rw [← missing, State.settle_port1, quintetPort1_re_eq_false]
    change (spans q = true → n ≤ primaryIndex q + 1) ↔ primaryIndex q + 1 = n ∧ spans q = true
    simp only [hspans, and_true, forall_const]
    omega

/-! ## The responses within N_MAX -/

theorem qcnt_le_outLen (n : Nat) (pad : Bool) : qcnt n ≤ outLen n pad := by
  cases pad
  · exact le_rfl
  · rw [outLen_true, plen_eq_ceil]
    omega

/-- Within N_MAX, FMT answers a character below QCNT, a pad from there to the output length, and V = 0 past it (R81). -/
theorem fmt_rsp_cases {s : State} (h : s.len.toNat ≤ Config.nMax) (idx : BitVec 16) (pad : Bool) :
    ∃ t, exec (.fmt idx pad) s = .next t ∧
      ((idx.toNat < qcnt s.len.toNat ∧ ∃ v, t.rsp = resultRsp true false ((romRead v).setWidth 24)) ∨
        (qcnt s.len.toNat ≤ idx.toNat ∧ idx.toNat < outLen s.len.toNat pad ∧
          t.rsp = resultRsp true true (padCode.setWidth 24)) ∨
        (outLen s.len.toNat pad ≤ idx.toNat ∧ t.rsp = resultRsp false false 0)) := by
  rcases Nat.lt_or_ge idx.toNat (qcnt s.len.toNat) with hk | hk
  · exact ⟨_, execFmt_of_lt h pad hk, .inl ⟨hk, _, rfl⟩⟩
  · refine ⟨_, execFmt_of_ge h pad hk, .inr ?_⟩
    cases pad with
    | false => exact .inr ⟨hk, rfl⟩
    | true =>
      rcases Nat.lt_or_ge idx.toNat (plen s.len.toNat) with hp | hp
      · refine .inl ⟨hk, hp, ?_⟩
        simp [hp]
      · refine .inr ⟨hp, ?_⟩
        simp [Nat.not_lt.2 hp]

/-- Within N_MAX, FMT answers without error, and with V = 1 exactly below the output length (R81, R99). -/
theorem fmt_valid_iff {s : State} (h : s.len.toNat ≤ Config.nMax) (idx : BitVec 16) (pad : Bool) :
    ∃ t, exec (.fmt idx pad) s = .next t ∧ rspErr t.rsp = false ∧
      (rspV t.rsp = true ↔ idx.toNat < outLen s.len.toNat pad) := by
  have hle := qcnt_le_outLen s.len.toNat pad
  obtain ⟨t, hexec, ⟨hk, v, hrsp⟩ | ⟨-, hk, hrsp⟩ | ⟨hk, hrsp⟩⟩ := fmt_rsp_cases h idx pad
  · exact ⟨t, hexec, by simp [hrsp], by simpa [hrsp] using hk.trans_le hle⟩
  · exact ⟨t, hexec, by simp [hrsp], by simpa [hrsp] using hk⟩
  · exact ⟨t, hexec, by simp [hrsp], by simpa [hrsp] using hk⟩

/-- Settles O16: the LEN check is the only error of these requests, and V is 0 past the end. -/
theorem noErrorDependsOnTheBytes : Obligations.NoErrorDependsOnTheBytes := by
  intro s hlen
  have noFault : lenFault s = none := if_neg (Nat.not_lt.2 hlen)
  refine ⟨fun idx => ?_, fun idx pad => ?_, fun pad => exec_succeeds noFault⟩
  · refine ⟨_, execQuint_of_le hlen idx, ?_, fun hq => ?_⟩
    · rw [State.settle_rsp]
      split <;> exact rspErr_resultRsp ..
    · rw [State.settle_rsp, if_neg (Nat.not_lt.2 hq), rspV_resultRsp]
  · obtain ⟨t, hexec, hok, hvalid⟩ := fmt_valid_iff hlen idx pad
    exact ⟨t, hexec, hok, fun hend => Bool.eq_false_iff.2 fun hv => Nat.not_lt.2 hend (hvalid.1 hv)⟩

theorem romRead_ne_padCode : ∀ v : BitVec 5, romRead v ≠ padCode := by
  decide

/-- Settles O29: the ROM is looked through; FMT answers a ROM entry, the pad, or the word 0. -/
theorem padIsNoAlphabetCharacter : Obligations.PadIsNoAlphabetCharacter := by
  refine ⟨rfl, romRead_ne_padCode, fun s idx pad hlen => ?_⟩
  obtain ⟨t, hexec, ⟨-, v, hrsp⟩ | ⟨-, -, hrsp⟩ | ⟨-, hrsp⟩⟩ := fmt_rsp_cases hlen idx pad
  · have hchar : (romRead v).setWidth 24 ≠ 0x3D#24 := fun h => romRead_ne_padCode v (by
      simpa [padCode] using congrArg (BitVec.setWidth 8) h)
    exact ⟨t, hexec, by simp [hrsp, hchar]⟩
  · exact ⟨t, hexec, by simp [hrsp, padCode]⟩
  · exact ⟨t, hexec, by simp [hrsp]⟩

/-- Within N_MAX, OLEN's DATA is the output length (R82). -/
theorem olen_data {s : State} (h : s.len.toNat ≤ Config.nMax) (pad : Bool) :
    ∃ t, exec (.olen pad) s = .next t ∧ (rspData t.rsp).toNat = outLen s.len.toNat pad := by
  have hmax := outLen_le h pad
  refine ⟨_, execOlen_of_le h pad, ?_⟩
  rw [State.settle_rsp, rspData_resultRsp, BitVec.toNat_ofNat, Nat.mod_eq_of_lt (by omega)]

/-- Settles O33: OLEN reports QCNT and PLEN, whose remainders beyond whole groups are the table's. -/
theorem padsDependOnLengthModFive : Obligations.PadsDependOnLengthModFive := by
  intro s hlen n
  obtain ⟨t0, hexec0, hdata0⟩ := olen_data hlen false
  obtain ⟨t1, hexec1, hdata1⟩ := olen_data hlen true
  have unpadded : qcnt n = 8 * (n / 5) + (8 * (n % 5) + 4) / 5 := by
    rw [qcnt_eq]
    omega
  have padded : plen n = 8 * (n / 5) + 8 * ((n % 5 + 4) / 5) := by
    rw [plen_eq]
    omega
  have hrow : n % 5 < 5 := by omega
  refine ⟨t0, t1, hexec0, hexec1, ?_⟩
  rw [hdata0, hdata1, outLen_false, outLen_true, unpadded, padded]
  interval_cases n % 5 <;> simp

end Sys2Proof.Machine
end

section
/-! The encode observation (R83 to R88, R118, R119): it is the Base32 text of the input, so its properties are those of the
text; and its requests and evaluations are counted along the program. -/

namespace Sys2Proof.Machine

/-! ## The text -/

/-- Within N_MAX the encode is the Base32 text of the input (R83). -/
theorem encodeObs_eq_base32_input {s : State} (hs : s.inputsStable = true) (h : s.len.toNat ≤ Config.nMax) (pad : Bool) :
    encodeObs pad s = .ok (base32 s.input pad) :=
  encodeObs_eq_base32 (by rwa [input_length]) ⟨hs, rfl⟩ pad

/-- Settles O35: by the encode program's run on the presented input. -/
theorem encodeIsBase32OfTheInput : Obligations.EncodeIsBase32OfTheInput :=
  fun _ pad hs hlen => encodeObs_eq_base32_input hs hlen pad

/-- Settles O36: the set-up presents the bytes, and the encode of presented bytes is their text. -/
theorem setUpThenEncodeIsBase32 : Obligations.SetUpThenEncodeIsBase32 := by
  intro s bytes pad h
  obtain ⟨t, hset, ht⟩ := setUp_presents h s
  exact ⟨t, hset, ht.2, encodeObs_eq_base32 h ht pad⟩

theorem base32_input_length (s : State) (pad : Bool) : (base32 s.input pad).length = outLen s.len.toNat pad := by
  rw [base32_length, input_length]

/-- The padded text is the unpadded one and then pads. -/
theorem base32_true_eq (input : List Byte) : base32 input true =
    base32 input false ++ List.replicate (outLen input.length true - qcnt input.length) padCode := by
  simp [base32, outLen_false]

/-- Settles O34: character `k` of the text is FMT's at `k`, and FMT's V marks the positions of the text. -/
theorem encodeCollectsTheFmtCharacters : Obligations.EncodeCollectsTheFmtCharacters := by
  intro s pad hs hlen
  have hlength := base32_input_length s pad
  refine ⟨_, encodeObs_eq_base32_input hs hlen pad, hlength, fun idx => ?_⟩
  obtain ⟨t, hexec, hok, hvalid⟩ := fmt_valid_iff hlen idx pad
  rw [hlength]
  refine ⟨t, hexec, hok, fun hk => ⟨hvalid.2 hk, ?_⟩, fun hk => ?_⟩
  · obtain ⟨p0, p1, w, hexec', -, hchar⟩ := fmt_collects hlen hk
    cases hexec.symm.trans hexec'
    exact hchar
  · exact Bool.eq_false_iff.2 fun hv => Nat.not_lt.2 hk (hvalid.1 hv)

/-- Settles O37: the lengths of the two texts are QCNT and PLEN (R78). -/
theorem encodeLengthIsStated : Obligations.EncodeLengthIsStated := by
  intro s hs hlen
  obtain ⟨unpadded, padded, multiple, -, -, same⟩ := paddedLengthIsLeastMultipleOfEight s.len.toNat
  refine ⟨_, _, encodeObs_eq_base32_input hs hlen false, encodeObs_eq_base32_input hs hlen true, ?_⟩
  rw [base32_input_length, base32_input_length]
  exact ⟨unpadded, unpadded ▸ padded, multiple, same⟩

theorem romRead_mem (v : BitVec 5) : romRead v ∈ alphabetRom := by
  revert v
  decide

/-- A text of ROM codes and then pads has no code after a pad. -/
theorem base32_suffix {input : List Byte} {pad : Bool} {j k : Nat} (hkj : k ≤ j) (hj : j < (base32 input pad).length)
    (hk : (base32 input pad)[k]? = some padCode) : (base32 input pad)[j]? = some padCode := by
  have past : qcnt input.length ≤ k := by
    by_contra hlt
    have hk' : k < qcnt input.length := Nat.not_le.1 hlt
    rw [base32, List.getElem?_append_left (by simpa using hk')] at hk
    simp [hk', romRead_ne_padCode] at hk
  rw [base32_length] at hj
  rw [base32, List.getElem?_append_right (by simpa using past.trans hkj),
    List.getElem?_replicate_of_lt (by simpa using Nat.sub_lt_sub_right (past.trans hkj) hj)]

theorem mem_alphabetRom_or_pad {input : List Byte} {pad : Bool} {c : Byte} (h : c ∈ base32 input pad) :
    c ∈ alphabetRom ∨ c = padCode := by
  obtain h | h := List.mem_append.1 h
  · obtain ⟨q, -, rfl⟩ := List.mem_map.1 h
    exact .inl (romRead_mem _)
  · exact .inr (List.mem_replicate.1 h).2

/-- Settles O38: the text's characters are ROM codes and then pads. -/
theorem padsFormASuffix : Obligations.PadsFormASuffix := by
  intro s pad hs hlen
  exact ⟨_, encodeObs_eq_base32_input hs hlen pad, fun _ => mem_alphabetRom_or_pad, fun _ _ => base32_suffix⟩

/-- Settles O39: the padded text goes on after the unpadded one, and below QCNT FMT does not look at PAD. -/
theorem unpaddedIsAPrefixOfPadded : Obligations.UnpaddedIsAPrefixOfPadded := by
  intro s hs hlen
  refine ⟨⟨_, _, encodeObs_eq_base32_input hs hlen false, encodeObs_eq_base32_input hs hlen true, ?_⟩,
    fun idx hk => ⟨_, _, execFmt_of_lt hlen false hk, execFmt_of_lt hlen true hk, rfl⟩⟩
  rw [base32_true_eq]
  exact ⟨_, rfl⟩

theorem base32_nil (pad : Bool) : base32 [] pad = [] := by
  cases pad <;> rfl

/-- Settles O40: the empty input has no quintet, so OLEN is 0 and its text is empty. -/
theorem emptyInputEncodesToNothing : Obligations.EmptyInputEncodesToNothing := by
  intro s pad hs hempty
  have hlen : s.len.toNat ≤ Config.nMax := by simp [hempty]
  have hinput : s.input = [] := by simp [State.input, hempty]
  have answered := olen_answersUnread_of_le hlen pad
  have zero : outLen s.len.toNat pad = 0 := by rw [← base32_input_length, hinput, base32_nil]; rfl
  rw [zero] at answered
  exact ⟨answered, by rw [encodeObs_eq_base32_input hs hlen, hinput, base32_nil]⟩

/-! ## Where the observation stops -/

theorem olen_of_gt {s : State} (h : Config.nMax < s.len.toNat) (pad : Bool) :
    ∃ t, exec (.olen pad) s = .next t ∧ t.rsp = errRsp .lenRange :=
  ⟨_, checkLen_of_gt h _, rfl⟩

theorem encodeObs_of_gt {s : State} (hs : s.inputsStable = true) (h : Config.nMax < s.len.toNat) (pad : Bool) :
    encodeObs pad s = .error (.errResponse 3#4) := by
  obtain ⟨t, hexec, hrsp⟩ := olen_of_gt (s := s.present (encode (.olen pad))) h pad
  have stopped := ask_of_error hs (decode_encode_olen pad) hexec (by rw [hrsp, rspErr_errRsp])
  rw [hrsp, rspEcode_errRsp] at stopped
  exact encodeObs_of_stop (encodeRun_of_stop stopped)

/-- Settles O42: the first request, OLEN, stops the observation. -/
theorem encodeStopsOutsideItsPremises : Obligations.EncodeStopsOutsideItsPremises :=
  ⟨fun _ _ hs => encodeObs_of_stop (encodeRun_of_stop (ask_of_unstable _ hs)),
    fun _ pad hs h => encodeObs_of_gt hs h pad⟩

/-- Settles O41: within N_MAX by the input's text, and over it by the same stop. -/
theorem sameInputEncodesTheSame : Obligations.SameInputEncodesTheSame := by
  intro s s' pad hs hs' hlen hbuf
  rcases Nat.lt_or_ge Config.nMax s.len.toNat with hl | hl
  · rw [encodeObs_of_gt hs hl, encodeObs_of_gt hs' (hlen ▸ hl)]
  · have hinput : s.input = s'.input := by
      rw [State.input, State.input, ← hlen]
      exact List.map_congr_left fun a ha => hbuf a (List.mem_range.1 ha)
    rw [encodeObs_eq_base32_input hs hl, encodeObs_eq_base32_input hs' (hlen ▸ hl), hinput]

/-! ## The requests and their count -/

/-- A request that is answered is one evaluation. -/
theorem ask_freeCount {s t : State} {i : Instr} (h : ask s i = .ok t) : t.freeCount = s.freeCount + 1 := by
  obtain ⟨p0, p1, w, hstep⟩ := step_settles (s.present (encode i))
  rw [ask, hstep] at h
  split at h
  · simp only at h
    split at h
    · cases h
    · cases h; rfl
  · cases h

/-- The FMT requests of an encode are for the positions from `k` up, one evaluation each. -/
theorem collect_requests {pad : Bool} {count k : Nat} {s u : State} {xs : List Exchange}
    (h : collect pad count k s = .ok (xs, u)) :
    xs.map Exchange.request = (List.range' k count).map (fun k => .fmt (BitVec.ofNat 16 k) pad) ∧
      u.freeCount = s.freeCount + count := by
  induction count generalizing k s xs with
  | zero => cases h; exact ⟨rfl, rfl⟩
  | succ count ih =>
    rw [collect] at h
    split at h
    next => cases h
    next t asked =>
      split at h
      next => cases h
      next ys v hrest =>
        cases h
        obtain ⟨hrequests, hcount⟩ := ih hrest
        have first := ask_freeCount asked
        exact ⟨by rw [List.range'_succ, List.map_cons, List.map_cons, hrequests], by omega⟩

/-- Within N_MAX an encode presents OLEN and then FMT for each position of the output, one evaluation each (R119). -/
theorem encodeRun_requests {s : State} (hs : s.inputsStable = true) (h : s.len.toNat ≤ Config.nMax) (pad : Bool) :
    ∃ xs t, encodeRun pad s = .ok (xs, t) ∧ xs.map Exchange.request =
        .olen pad :: (List.range (outLen s.len.toNat pad)).map (fun k => .fmt (BitVec.ofNat 16 k) pad) ∧
      t.freeCount = s.freeCount + (1 + outLen s.len.toNat pad) := by
  have hinput : s.input.length ≤ Config.nMax := by rwa [input_length]
  obtain ⟨t, asked, ht, hlen⟩ := ask_olen hinput ⟨hs, rfl⟩ pad
  obtain ⟨xs, u, hcollect, -⟩ := collect_eq_base32 hinput ht (Nat.zero_add (outLen s.input.length pad))
  obtain ⟨hrequests, hcount⟩ := collect_requests hcollect
  have first := ask_freeCount asked
  rw [input_length] at hrequests hcount
  refine ⟨_, u, encodeRun_of_collect asked (hlen ▸ hcollect), ?_, by omega⟩
  rw [List.map_cons, hrequests, List.range_eq_range']

/-- Settles O49: a step settles, so it answers once; the encode's requests are counted along its run. -/
theorem everyRequestEndsWithOneResponse : Obligations.EveryRequestEndsWithOneResponse := by
  refine ⟨fun s => ?_, fun s pad hs h => ?_⟩
  · obtain ⟨p0, p1, w, hstep⟩ := step_settles s
    exact ⟨_, hstep, fun t' ht' => by cases hstep.symm.trans ht'; rfl⟩
  · obtain ⟨xs, t, hrun, hrequests, hcount⟩ := encodeRun_requests hs h pad
    have hlength : xs.length = 1 + outLen s.len.toNat pad := by
      simpa [Nat.add_comm] using congrArg List.length hrequests
    have hmax := outLen_le h pad
    exact ⟨xs, t, hrun, encodeObs_of_run hrun, hrequests, hlength, by omega, by rw [hcount, hlength]⟩

end Sys2Proof.Machine
end
